-- ==== Sys2Proof/Word.lean ====
section
/-! DEFINITION. The word types of CORE (spec 00_scope.md R8): every value is an unsigned number of a fixed width. -/

namespace Sys2Proof

/-- `Word15`: a value in 0..32767 (R8), held by a register, an operand and a queue entry. -/
abbrev Word15 := BitVec 15

/-- `Word16`: a value in 0..65535 (R8), held by a memory cell, a stack entry and `pc` (R6). -/
abbrev Word16 := BitVec 16

/-- `Addr`: an address in 0..32767 (R8). -/
abbrev Addr := BitVec 15

/-- `RegIdx`: a register number in 0..7 (R8). -/
abbrev RegIdx := Fin 8

/-- One byte of a program image (20_memory.md R40). No other part of CORE has bytes (R39). -/
abbrev ImageByte := BitVec 8

end Sys2Proof
end

