-- ==== Sys2Proof/Config.lean ====
section
/-! DEFINITION. The fixed parameters of CORE (spec 00_scope.md R6), its open parameters (R7), and the one value the
spec leaves open. -/

namespace Sys2Proof

/-- `MEM_WORDS`: the number of cells of the address space (R6). -/
abbrev memWords : Nat := 32768

/-- `REG_REF_BASE`: the first operand word that names a register (R6). -/
abbrev regRefBase : Nat := 32768

/-- The open parameters of R7; `none` is unbounded. "A model takes each as an argument": State carries them as a
field that nothing changes (log entry 5). -/
structure Params where
  stackCapacity      : Option Nat
  inputCapacity      : Option Nat
  breakpointCapacity : Option Nat
  deriving DecidableEq, Repr

/-- R7's default for each open parameter. -/
def Params.default : Params :=
  { stackCapacity := none, inputCapacity := none, breakpointCapacity := none }

/-- FREE VALUE (log entry 8, DESIGN CHOICE). The 16-bit FAULT_INFO after a STACK_OVERFLOW whose capacity `N` does not
fit in 16 bits: R108 gives `N` and states no 16-bit value for it. No body: nothing can be proved about it. -/
opaque Config.wideCapacityInfo : Nat → Word16

end Sys2Proof
end

