-- ==== Sys2Proof/Syntax.lean ====
section
/-! DEFINITION. The instructions of CORE as syntax (spec 30_encoding.md R54, R56), one constructor per row of
spec/opcode_table.json, under the spec's primary names (00_scope.md R12). -/

namespace Sys2Proof

/-- A decoded operand, the source's "Number" (30_encoding.md R56). -/
inductive Operand where
  /-- a literal, raw word 0..32767 -/
  | lit (v : Word15)
  /-- a register reference, raw word 32768..32775 -/
  | reg (i : RegIdx)
  deriving DecidableEq, Repr

/-- The 22 instructions (R54), each with its operands in memory order (R52). A destination is an `Operand` too: one
that is a literal can be decoded and faults when it is executed (R58). -/
inductive Instr where
  | halt
  | setRegister (dst src : Operand)
  | push (src : Operand)
  | pop (dst : Operand)
  | compareEquals (dst a b : Operand)
  | compareGreaterThan (dst a b : Operand)
  | jump (target : Operand)
  | jumpIfTrue (cond target : Operand)
  | jumpIfFalse (cond target : Operand)
  | add (dst a b : Operand)
  | multiply (dst a b : Operand)
  | mod (dst a b : Operand)
  | bitwiseAnd (dst a b : Operand)
  | bitwiseOr (dst a b : Operand)
  | bitwiseNot (dst a : Operand)
  | memoryRead (dst addr : Operand)
  | memoryWrite (addr val : Operand)
  | functionCall (target : Operand)
  | functionReturn
  | printChar (val : Operand)
  | readChar (dst : Operand)
  | noOp
  deriving DecidableEq, Repr

end Sys2Proof
end

