-- ==== Sys2Proof/Decode.lean ====
section
/-! DEFINITION. The decoder (spec 30_encoding.md R52 to R63), total on any contents of memory and rejecting by name,
and after it the encoder, written from the same tables. -/

namespace Sys2Proof

/-- A 15-bit value in a 16-bit place: the same number (R8, every move keeps the value). -/
def cellOfWord (v : Word15) : Word16 := v.setWidth 16

/-- The low 15 bits of a 16-bit value; the same number when it is at most 32767. -/
def wordOfCell (w : Word16) : Word15 := w.setWidth 15

/-- What `decode` returns (R63). -/
inductive Decoded where
  /-- an instruction, `len` words long -/
  | instr (i : Instr) (len : Nat)
  /-- the sentinel for an opcode word outside 0..21, carrying the raw word; its length counts as 1 (R55, R61) -/
  | unrecognized (w : Word16) (len : Nat)
  /-- the operand word `u` at address `p` is above 32775 (R56) -/
  | invalidOperand (u : Word16) (p : Nat)
  /-- a word of the instruction would lie at `p`, which is no address (R63) -/
  | fetchFault (p : Nat)
  deriving DecidableEq, Repr

/-- An operand word (R56): a literal below 32768, a register reference for the 8 words from 32768, and `none`, an
invalid word, from 32776 (R6 INVALID_OPERAND_MIN) on. -/
def decodeOperand (u : Word16) : Option Operand :=
  if u.toNat < regRefBase then some (.lit (wordOfCell u))
  else if h : u.toNat - regRefBase < 8 then some (.reg ⟨u.toNat - regRefBase, h⟩)
  else none

/-- The formats F0 to F3 of R52, each with the instruction its operands make, in memory order. -/
inductive Format where
  | f0 (i : Instr)
  | f1 (mk : Operand → Instr)
  | f2 (mk : Operand → Operand → Instr)
  | f3 (mk : Operand → Operand → Operand → Instr)

/-- The opcode map of R54. The opcode word is read whole; any word above 21 is unrecognized (R53, R61). -/
def opcodeFormat (w : Word16) : Option Format :=
  match w.toNat with
  | 0 => some (.f0 .halt)
  | 1 => some (.f2 .setRegister)
  | 2 => some (.f1 .push)
  | 3 => some (.f1 .pop)
  | 4 => some (.f3 .compareEquals)
  | 5 => some (.f3 .compareGreaterThan)
  | 6 => some (.f1 .jump)
  | 7 => some (.f2 .jumpIfTrue)
  | 8 => some (.f2 .jumpIfFalse)
  | 9 => some (.f3 .add)
  | 10 => some (.f3 .multiply)
  | 11 => some (.f3 .mod)
  | 12 => some (.f3 .bitwiseAnd)
  | 13 => some (.f3 .bitwiseOr)
  | 14 => some (.f2 .bitwiseNot)
  | 15 => some (.f2 .memoryRead)
  | 16 => some (.f2 .memoryWrite)
  | 17 => some (.f1 .functionCall)
  | 18 => some (.f0 .functionReturn)
  | 19 => some (.f1 .printChar)
  | 20 => some (.f1 .readChar)
  | 21 => some (.f0 .noOp)
  | _ => none

/-- The number of operand words of a format (R52). -/
def Format.arity : Format → Nat
  | .f0 _ => 0
  | .f1 _ => 1
  | .f2 _ => 2
  | .f3 _ => 3

/-- The instruction a format makes of the operand latches OPND[0], OPND[1], OPND[2]; a format uses the first `arity`
of them (40_fetch_decode_execute.md R71). -/
def Format.build (x y z : Operand) : Format → Instr
  | .f0 i => i
  | .f1 mk => mk x
  | .f2 mk => mk x y
  | .f3 mk => mk x y z

/-- Reads the operand word at `p` and goes on with its operand, or stops at the first failing word (R63). -/
def withOperand (cellAt : Nat → Option Word16) (p : Nat) (go : Operand → Decoded) : Decoded :=
  match cellAt p with
  | none => .fetchFault p
  | some u =>
    match decodeOperand u with
    | none => .invalidOperand u p
    | some x => go x

/-- The decode function of R63 at address `a`. `cellAt p` is the cell at `p`, or `none` where there is no address `p`.
Words are read in address order and decoding stops at the first that fails. -/
def decode (cellAt : Nat → Option Word16) (a : Nat) : Decoded :=
  match cellAt a with
  | none => .fetchFault a
  | some w =>
    match opcodeFormat w with
    | none => .unrecognized w 1
    | some (.f0 i) => .instr i 1
    | some (.f1 mk) => withOperand cellAt (a + 1) fun x => .instr (mk x) 2
    | some (.f2 mk) =>
      withOperand cellAt (a + 1) fun x => withOperand cellAt (a + 2) fun y => .instr (mk x y) 3
    | some (.f3 mk) =>
      withOperand cellAt (a + 1) fun x => withOperand cellAt (a + 2) fun y =>
        withOperand cellAt (a + 3) fun z => .instr (mk x y z) 4

/-- A list of words as the cells of an otherwise absent memory, the first at address 0. -/
def cellsOf (ws : List Word16) (p : Nat) : Option Word16 := ws[p]?

/-- The word number `j` of an instruction whose bits are `w`, bit 0 the lowest bit of the first word, and every bit
from `nbits` on zero. -/
def tableCell (nbits w j : Nat) : Word16 := BitVec.ofNat 16 (w % 2 ^ nbits / 2 ^ (16 * j))

/-- The four words (the longest instruction, R52) of an instruction numbered as spec/opcode_table.json numbers it. -/
def tableCells (nbits w : Nat) : List Word16 :=
  [tableCell nbits w 0, tableCell nbits w 1, tableCell nbits w 2, tableCell nbits w 3]

/-- The instruction `decode` reads from an instruction word of spec/opcode_table.json. -/
def decodeTableWord (nbits w : Nat) : Option Instr :=
  match decode (cellsOf (tableCells nbits w)) 0 with
  | .instr i _ => some i
  | .unrecognized _ _ => none
  | .invalidOperand _ _ => none
  | .fetchFault _ => none

/-- The operand word of an operand (R56). -/
def encodeOperand : Operand → Word16
  | .lit v => cellOfWord v
  | .reg i => BitVec.ofNat 16 (regRefBase + i.val)

/-- The opcode word of an instruction (R54). -/
def Instr.opcode : Instr → Word16
  | .halt => 0
  | .setRegister _ _ => 1
  | .push _ => 2
  | .pop _ => 3
  | .compareEquals _ _ _ => 4
  | .compareGreaterThan _ _ _ => 5
  | .jump _ => 6
  | .jumpIfTrue _ _ => 7
  | .jumpIfFalse _ _ => 8
  | .add _ _ _ => 9
  | .multiply _ _ _ => 10
  | .mod _ _ _ => 11
  | .bitwiseAnd _ _ _ => 12
  | .bitwiseOr _ _ _ => 13
  | .bitwiseNot _ _ => 14
  | .memoryRead _ _ => 15
  | .memoryWrite _ _ => 16
  | .functionCall _ => 17
  | .functionReturn => 18
  | .printChar _ => 19
  | .readChar _ => 20
  | .noOp => 21

/-- The operands of an instruction in memory order (R52, R54). -/
def Instr.operands : Instr → List Operand
  | .halt => []
  | .setRegister dst src => [dst, src]
  | .push src => [src]
  | .pop dst => [dst]
  | .compareEquals dst a b => [dst, a, b]
  | .compareGreaterThan dst a b => [dst, a, b]
  | .jump target => [target]
  | .jumpIfTrue cond target => [cond, target]
  | .jumpIfFalse cond target => [cond, target]
  | .add dst a b => [dst, a, b]
  | .multiply dst a b => [dst, a, b]
  | .mod dst a b => [dst, a, b]
  | .bitwiseAnd dst a b => [dst, a, b]
  | .bitwiseOr dst a b => [dst, a, b]
  | .bitwiseNot dst a => [dst, a]
  | .memoryRead dst addr => [dst, addr]
  | .memoryWrite addr val => [addr, val]
  | .functionCall target => [target]
  | .functionReturn => []
  | .printChar val => [val]
  | .readChar dst => [dst]
  | .noOp => []

/-- The words of an instruction: the opcode word and then its operand words (R52). -/
def encode (i : Instr) : List Word16 := i.opcode :: i.operands.map encodeOperand

end Sys2Proof
end

