-- ==== Sys2Proof/Machine/State.lean ====
section
/-! DEFINITION. The state of CORE (spec 10_state.md R33), its value after reset (70_reset_and_hazards.md R134), and the
reasons a step of the model can stop. -/

namespace Sys2Proof.Machine

/-- `STATUS` (10_state.md R26): six values, so the codes 6 and 7 are never held. -/
inductive Status where
  | idle
  | running
  | halted
  | breakpoint
  | inputStarved
  | faulted
  deriving DecidableEq, Repr

/-- `FAULT_CAUSE` (60_exceptions.md R108): nine values, so the codes 9 to 15 are never held. -/
inductive FaultCause where
  /-- no fault since reset -/
  | noFault
  | fetchOutOfRange
  | unrecognizedOpcode
  | invalidOperand
  | stackUnderflow
  | invalidDestination
  | divideByZero
  | valueOutOfRange
  | stackOverflow
  deriving DecidableEq, Repr

/-- The states of the FSM (40_fetch_decode_execute.md R67). -/
inductive FsmState where
  | stopped
  | fetchOp
  | fetchOpnd
  | execute
  | check
  deriving DecidableEq, Repr

/-- The reasons the MODEL stops. The faults of CORE are not among them: those are next states (R112). -/
inductive Fault where
  /-- Raised by the FSM in FETCH_OPND when OPC is no opcode or K is past the last operand latch, and in EXECUTE when
  OPC is no opcode. The spec gives such a state no behaviour; no transition leads to one, since FETCH_OP checks OPC
  before it leaves and K counts from 0 to the arity. Safe. No instruction's meaning raises it (log entry 6). -/
  | latchesInconsistent
  deriving DecidableEq, Repr

/-- The reasons the model gives an instruction no meaning. -/
inductive Refusal where
  /-- An instruction whose arm of `exec` has no meaning yet. No arm is left so. Safe. -/
  | notModelled (mnemonic : String)
  deriving DecidableEq, Repr

/-- The memory array as (address, cell) pairs in canonical form (`Memory.wf`): addresses strictly rising, no entry
equal to what an unlisted address reads as (log entry 1). -/
abbrev Memory := List (Nat × Word16)

/-- The state of CORE: the table of 10_state.md R33, `outlog` (47_io.md R105), how much of it has been read
(60_exceptions.md R131), and the parameters of 00_scope.md R7. -/
structure State where
  /-- `x[0..7]` (R15) -/
  regs : Vector Word15 8
  /-- the program counter (R18) -/
  pc : Word16
  /-- `MEM` (R30) -/
  mem : Memory
  /-- the call stack (R22), top entry first (log entry 2) -/
  stack : List Word16
  /-- the pending-input queue (R23), oldest first -/
  inq : List Word15
  /-- the breakpoint set (R24), strictly rising (log entry 3) -/
  bps : List Addr
  /-- `OUT_EN` (R28) -/
  outEn : Bool
  /-- `STATUS` (R26) -/
  status : Status
  /-- `FAULT_CAUSE` (R27) -/
  faultCause : FaultCause
  /-- `FAULT_ADDR` (R27) -/
  faultAddr : Word16
  /-- `FAULT_INFO` (R27) -/
  faultInfo : Word16
  /-- the FSM state (R32, R67) -/
  fsm : FsmState
  /-- the latch `OPADDR` (R32) -/
  opaddr : Word16
  /-- the latch `OPC` (R32) -/
  opc : Word16
  /-- the latches `OPND[0..2]` (R32) -/
  opnd : Vector Operand 3
  /-- the latch `K` (R32), at most the largest arity -/
  k : Fin 4
  /-- every value emitted since reset, in order (R105) -/
  outlog : List Word15
  /-- how many values of `outlog` READ_OUTPUT has returned (R131) -/
  outRead : Nat
  /-- the open parameters (R7); nothing changes them (log entry 5) -/
  params : Params
  deriving DecidableEq, Repr

/-- What a step and a meaning answer. -/
abbrev Result := Host.Outcome State Fault Refusal

/-- CORE right after reset (10_state.md R33, 70_reset_and_hazards.md R134). The latches have no reset value in the
spec and hold 0 here (log entry 4, DESIGN CHOICE); the parameters hold R7's defaults. -/
def State.reset : State :=
  { regs := Vector.replicate 8 0
    pc := 0
    mem := []
    stack := []
    inq := []
    bps := []
    outEn := true
    status := .idle
    faultCause := .noFault
    faultAddr := 0
    faultInfo := 0
    fsm := .stopped
    opaddr := 0
    opc := 0
    opnd := Vector.replicate 3 (.lit 0)
    k := 0
    outlog := []
    outRead := 0
    params := Params.default }

end Sys2Proof.Machine
end

