-- ==== Sys2Proof/Machine/Ops.lean ====
section
/-! DEFINITION. The named operations over memory, registers, the call stack, the queue, the breakpoint set and the
output sink, the codes of the status registers, and the ways an execute step ends: normally, by a suspension, or by
taking a fault (the primitives of spec 00_scope.md R9). -/

namespace Sys2Proof.Machine

/-! ### Memory: the port of 20_memory.md R37 -/

/-- What a cell that nothing has written reads as: 0, the reset value of every cell (10_state.md R33). -/
def Memory.unlisted : Word16 := 0

/-- `MEM[a]` (R37). -/
def Memory.read : Memory → Nat → Word16
  | [], _ => Memory.unlisted
  | (key, v) :: m, a => if key = a then v else Memory.read m a

/-- Places an entry before the first one with a higher address. -/
def Memory.place (a : Nat) (v : Word16) : Memory → Memory
  | [] => [(a, v)]
  | (key, w) :: m => if a < key then (a, v) :: (key, w) :: m else (key, w) :: Memory.place a v m

/-- `MEM[a] <- v` (R37): replaces all 16 bits of the cell (R42). A cell that gets back what an unlisted one reads as
loses its entry. -/
def Memory.write (m : Memory) (a : Nat) (v : Word16) : Memory :=
  let rest := m.filter fun e => e.1 != a
  if v = Memory.unlisted then rest else Memory.place a v rest

/-- The canonical form: addresses strictly rising and inside the address space, no entry that says nothing. -/
abbrev Memory.wf (m : Memory) : Prop :=
  m.Pairwise (fun x y => x.1 < y.1) ∧ ∀ e ∈ m, e.1 < memWords ∧ e.2 ≠ Memory.unlisted

/-- The cell at `p` for a fetch, `none` at 32768 and above: `pc` never wraps (10_state.md R20). -/
def Memory.cellAt (m : Memory) (p : Nat) : Option Word16 :=
  if p < memWords then some (m.read p) else none

/-- Writes cells from `a` upward; a cell past the end of the address space does not exist and is left out. -/
def Memory.storeCells : Memory → Nat → List Word16 → Memory
  | m, _, [] => m
  | m, a, w :: ws => Memory.storeCells (if a < memWords then m.write a w else m) (a + 1) ws

/-! ### Registers: 10_state.md R15 -/

/-- `x[i]`. -/
def State.reg (s : State) (i : RegIdx) : Word15 := s.regs[i]

/-- `x[i] <- v`. No register is hard-wired. -/
def State.setReg (s : State) (i : RegIdx) (v : Word15) : State := { s with regs := s.regs.set i v }

/-! ### Status codes: 10_state.md R26 and 60_exceptions.md R108 -/

/-- The 3-bit value of `STATUS` (R26). -/
def Status.code : Status → BitVec 3
  | .idle => 0
  | .running => 1
  | .halted => 2
  | .breakpoint => 3
  | .inputStarved => 4
  | .faulted => 5

/-- The 4-bit value of `FAULT_CAUSE` (R108). -/
def FaultCause.code : FaultCause → BitVec 4
  | .noFault => 0
  | .fetchOutOfRange => 1
  | .unrecognizedOpcode => 2
  | .invalidOperand => 3
  | .stackUnderflow => 4
  | .invalidDestination => 5
  | .divideByZero => 6
  | .valueOutOfRange => 7
  | .stackOverflow => 8

/-- The suspension flag, true while the run loop is not executing (R25, R26). -/
def State.suspensionFlag (s : State) : Bool := s.status != .running

/-! ### How an execute step ends: 40_fetch_decode_execute.md R71 -/

/-- The normal outcome: the breakpoint check comes next (R71). -/
def finishNormal (s : State) : Result := .next { s with fsm := .check }

/-- `suspend(reason)` (R75): the run ends without a fault and nothing else changes. -/
def suspend (reason : Status) (s : State) : State := { s with status := reason, fsm := .stopped }

/-- The starve outcome (R71): `pc` goes back to the instruction and the run ends, with no breakpoint check. -/
def starve (s : State) : State := suspend .inputStarved { s with pc := s.opaddr }

/-- TAKING A FAULT, the one entry of 60_exceptions.md R112: the fault record, `pc` back at the opcode, STATUS and the
FSM, and nothing else. No vector, no stack write, no mode. There is no return from a fault (R114): only RESET leaves
FAULTED (R113). -/
def raiseFault (cause : FaultCause) (info : Word16) (s : State) : State :=
  { s with
    faultCause := cause
    faultAddr := s.opaddr
    faultInfo := info
    pc := s.opaddr
    status := .faulted
    fsm := .stopped }

/-- An execute step that ends in a fault (R71). -/
def finishFault (cause : FaultCause) (info : Word16) (s : State) : Result :=
  .next (raiseFault cause info s)

/-! ### The call stack: 10_state.md R22 -/

/-- FAULT_INFO of a STACK_OVERFLOW: the capacity `N` (R108). A capacity above 65535 does not fit in the 16-bit
register, and the value is then free (log entry 8). -/
def overflowInfo (n : Nat) : Word16 :=
  if n < 65536 then BitVec.ofNat 16 n else Config.wideCapacityInfo n

/-- `push(v)` (R22), then the rest of the instruction. -/
def withPush (v : Word16) (s : State) (go : State → Result) : Result :=
  if s.params.stackCapacity = some s.stack.length then
    finishFault .stackOverflow (overflowInfo s.stack.length) s
  else go { s with stack := v :: s.stack }

/-- `pop()` (R22), then the rest of the instruction with the popped entry and the stack without it. -/
def withPop (s : State) (go : Word16 → State → Result) : Result :=
  match s.stack with
  | [] => finishFault .stackUnderflow 0 s
  | v :: rest => go v { s with stack := rest }

/-! ### The output sink and the queue: 47_io.md -/

/-- `emit(v)` (R105): the sink always takes the value at once, all 15 bits of it. -/
def emit (v : Word15) (s : State) : State := { s with outlog := s.outlog ++ [v] }

/-! ### The breakpoint set: 10_state.md R24 -/

/-- `pc in bps` (40_fetch_decode_execute.md R73): a `pc` of 32768 is in no set. -/
def State.atBreakpoint (s : State) : Bool := s.bps.any fun b => cellOfWord b == s.pc

/-- Adds an address, keeping the list strictly rising. -/
def breakpointInsert (a : Addr) : List Addr → List Addr
  | [] => [a]
  | b :: bs => if a < b then a :: b :: bs else if a = b then b :: bs else b :: breakpointInsert a bs

end Sys2Proof.Machine
end

