-- ==== Sys2Proof/Machine/Operands.lean ====
section
/-! DEFINITION. Operands at use time (spec 30_encoding.md R57 to R60): the one addressing mode of a source, and the
check of a destination. -/

namespace Sys2Proof.Machine

/-- `resolve(op)` (R59): a literal as it is, a register's current contents. -/
def resolve (s : State) : Operand → Word15
  | .lit v => v
  | .reg i => s.reg i

/-- A resolved operand as a target address: what a jump writes to `pc` (44_control_flow.md R90). -/
def resolveTarget (s : State) (x : Operand) : Word16 := cellOfWord (resolve s x)

/-- The address a data access uses (46_memory_access.md): absolute, and always in range. -/
def resolveAddr (s : State) (x : Operand) : Nat := (resolve s x).toNat

/-- The destination check of R58, made before any operand is resolved and before any state changes. -/
def withDestination (dst : Operand) (s : State) (go : RegIdx → Result) : Result :=
  match dst with
  | .lit v => finishFault .invalidDestination (cellOfWord v) s
  | .reg d => go d

/-- An instruction whose whole effect is one register write (10_state.md R17). -/
def finishWrite (d : RegIdx) (v : Word15) (s : State) : Result := finishNormal (s.setReg d v)

end Sys2Proof.Machine
end

