-- ==== Sys2Proof/Machine/Alu.lean ====
section
/-! DEFINITION. Add, Multiply, Mod, BitwiseAnd, BitwiseOr and BitwiseNot (spec 45_alu.md). Sums and products are
computed exactly and then reduced modulo 32768 (R96). -/

namespace Sys2Proof.Machine

/-- `(a + b) mod 32768` (R97). -/
def aluAdd (a b : Word15) : Word15 := BitVec.ofNat 15 (a.toNat + b.toNat)

/-- `(a * b) mod 32768` (R98). -/
def aluMultiply (a b : Word15) : Word15 := BitVec.ofNat 15 (a.toNat * b.toNat)

/-- `a mod b` for a divisor that is not 0 (R99). -/
def aluMod (a b : Word15) : Word15 := BitVec.ofNat 15 (a.toNat % b.toNat)

/-- `a & b` over bits 14..0 (R100). -/
def aluAnd (a b : Word15) : Word15 := a &&& b

/-- `a | b` over bits 14..0 (R101). -/
def aluOr (a b : Word15) : Word15 := a ||| b

/-- `not15(a) = 32767 - a` (R102, 00_scope.md R8). -/
def aluNot (a : Word15) : Word15 := BitVec.ofNat 15 (32767 - a.toNat)

/-- Add (R97). -/
def execAdd (dst a b : Operand) (s : State) : Result :=
  withDestination dst s fun d => finishWrite d (aluAdd (resolve s a) (resolve s b)) s

/-- Multiply (R98). -/
def execMultiply (dst a b : Operand) (s : State) : Result :=
  withDestination dst s fun d => finishWrite d (aluMultiply (resolve s a) (resolve s b)) s

/-- Mod (R99): a zero divisor faults with the dividend, the destination check coming first. -/
def execMod (dst a b : Operand) (s : State) : Result :=
  withDestination dst s fun d =>
    if resolve s b = 0 then finishFault .divideByZero (cellOfWord (resolve s a)) s
    else finishWrite d (aluMod (resolve s a) (resolve s b)) s

/-- BitwiseAnd (R100). -/
def execBitwiseAnd (dst a b : Operand) (s : State) : Result :=
  withDestination dst s fun d => finishWrite d (aluAnd (resolve s a) (resolve s b)) s

/-- BitwiseOr (R101). -/
def execBitwiseOr (dst a b : Operand) (s : State) : Result :=
  withDestination dst s fun d => finishWrite d (aluOr (resolve s a) (resolve s b)) s

/-- BitwiseNot (R102). -/
def execBitwiseNot (dst a : Operand) (s : State) : Result :=
  withDestination dst s fun d => finishWrite d (aluNot (resolve s a)) s

end Sys2Proof.Machine
end

