-- ==== Sys2Proof/Machine/Flags.lean ====
section
/-! DEFINITION. CORE has no status flags and no condition codes (spec 10_state.md R21). What stands in their place:
the 0-or-1 result of a comparison, written to a register, and the test of an operand for zero. -/

namespace Sys2Proof.Machine

/-- A comparison's result as a register value: 1 or 0 (R21). -/
def flagWord (b : Bool) : Word15 := if b then 1 else 0

/-- CompareEquals' condition (43_compare.md R88). -/
def wordsEqual (a b : Word15) : Bool := a == b

/-- CompareGreaterThan's condition: unsigned and strict (43_compare.md R89). -/
def wordGreater (a b : Word15) : Bool := decide (b.toNat < a.toNat)

/-- Any non-zero value counts as true (44_control_flow.md R92). -/
def wordTrue (c : Word15) : Bool := c != 0

end Sys2Proof.Machine
end

