-- ==== Sys2Proof/Machine/Compare.lean ====
section
/-! DEFINITION. CompareEquals and CompareGreaterThan (spec 43_compare.md). -/

namespace Sys2Proof.Machine

/-- CompareEquals (R88). -/
def execCompareEquals (dst a b : Operand) (s : State) : Result :=
  withDestination dst s fun d => finishWrite d (flagWord (wordsEqual (resolve s a) (resolve s b))) s

/-- CompareGreaterThan (R89). -/
def execCompareGreaterThan (dst a b : Operand) (s : State) : Result :=
  withDestination dst s fun d => finishWrite d (flagWord (wordGreater (resolve s a) (resolve s b))) s

end Sys2Proof.Machine
end

