-- ==== Sys2Proof/Machine/ControlFlow.lean ====
section
/-! DEFINITION. Jump, JumpIfTrue, JumpIfFalse, FunctionCall and FunctionReturn (spec 44_control_flow.md). When a
meaning begins, `pc` is the post-fetch pc. -/

namespace Sys2Proof.Machine

/-- Jump (R91). -/
def execJump (target : Operand) (s : State) : Result :=
  finishNormal { s with pc := resolveTarget s target }

/-- JumpIfTrue (R92). -/
def execJumpIfTrue (cond target : Operand) (s : State) : Result :=
  if wordTrue (resolve s cond) then finishNormal { s with pc := resolveTarget s target }
  else finishNormal s

/-- JumpIfFalse (R93). -/
def execJumpIfFalse (cond target : Operand) (s : State) : Result :=
  if wordTrue (resolve s cond) then finishNormal s
  else finishNormal { s with pc := resolveTarget s target }

/-- FunctionCall (R94): the post-fetch `pc` is pushed; the target is resolved before the push. -/
def execFunctionCall (target : Operand) (s : State) : Result :=
  withPush s.pc s fun pushed => finishNormal { pushed with pc := resolveTarget s target }

/-- FunctionReturn (R95). -/
def execFunctionReturn (s : State) : Result :=
  withPop s fun v popped => finishNormal { popped with pc := v }

end Sys2Proof.Machine
end

