-- ==== Sys2Proof/Machine/Io.lean ====
section
/-! DEFINITION. PrintChar and ReadChar (spec 47_io.md). -/

namespace Sys2Proof.Machine

/-- PrintChar (R106): with OUT_EN = 0 the value is dropped. -/
def execPrintChar (val : Operand) (s : State) : Result :=
  finishNormal (if s.outEn then emit (resolve s val) s else s)

/-- ReadChar (R107): an empty queue is no fault; the run is suspended with `pc` at this instruction. -/
def execReadChar (dst : Operand) (s : State) : Result :=
  withDestination dst s fun d =>
    match s.inq with
    | [] => .next (starve s)
    | v :: rest => finishWrite d v { s with inq := rest }

end Sys2Proof.Machine
end

