-- ==== Sys2Proof/Machine/MachineControl.lean ====
section
/-! DEFINITION. Halt and NoOp (spec 41_machine_control.md). -/

namespace Sys2Proof.Machine

/-- Halt (R83): the run ends, `pc` stays past the Halt. -/
def execHalt (s : State) : Result := .next (suspend .halted s)

/-- NoOp (R84): no state change. -/
def execNoOp (s : State) : Result := finishNormal s

end Sys2Proof.Machine
end

