-- ==== Sys2Proof/Machine/MemoryAccess.lean ====
section
/-! DEFINITION. MemoryRead and MemoryWrite (spec 46_memory_access.md): one absolute addressing mode, one whole cell. -/

namespace Sys2Proof.Machine

/-- MemoryRead (R103): a cell above 32767 faults and the register is not written. -/
def execMemoryRead (dst addr : Operand) (s : State) : Result :=
  withDestination dst s fun d =>
    let w := s.mem.read (resolveAddr s addr)
    if 32767 < w.toNat then finishFault .valueOutOfRange w s
    else finishWrite d (wordOfCell w) s

/-- MemoryWrite (R104). -/
def execMemoryWrite (addr val : Operand) (s : State) : Result :=
  finishNormal { s with mem := s.mem.write (resolveAddr s addr) (cellOfWord (resolve s val)) }

end Sys2Proof.Machine
end

