-- ==== Sys2Proof/Machine/RegisterStack.lean ====
section
/-! DEFINITION. SetRegister, Push and Pop (spec 42_register_stack.md). -/

namespace Sys2Proof.Machine

/-- SetRegister (R85). -/
def execSetRegister (dst src : Operand) (s : State) : Result :=
  withDestination dst s fun d => finishWrite d (resolve s src) s

/-- Push (R86). -/
def execPush (src : Operand) (s : State) : Result :=
  withPush (cellOfWord (resolve s src)) s finishNormal

/-- Pop (R87): the destination, then the empty stack, then the value are checked before anything changes. -/
def execPop (dst : Operand) (s : State) : Result :=
  withDestination dst s fun d =>
    withPop s fun v popped =>
      if 32767 < v.toNat then finishFault .valueOutOfRange v s
      else finishWrite d (wordOfCell v) popped

end Sys2Proof.Machine
end

