-- ==== Sys2Proof/Machine/Dispatch.lean ====
section
/-! DEFINITION. The execute step (spec 40_fetch_decode_execute.md R71): one arm per instruction of 30_encoding.md R54.
It acts on the state at the end of decode, where `pc` is the post-fetch pc and OPADDR the address of the opcode. -/

namespace Sys2Proof.Machine

def exec (i : Instr) (s : State) : Host.Outcome State Fault Refusal :=
  match i with
  | .halt => Sys2Proof.Machine.execHalt s
  | .setRegister dst src => Sys2Proof.Machine.execSetRegister dst src s
  | .push src => Sys2Proof.Machine.execPush src s
  | .pop dst => Sys2Proof.Machine.execPop dst s
  | .compareEquals dst a b => Sys2Proof.Machine.execCompareEquals dst a b s
  | .compareGreaterThan dst a b => Sys2Proof.Machine.execCompareGreaterThan dst a b s
  | .jump target => Sys2Proof.Machine.execJump target s
  | .jumpIfTrue cond target => Sys2Proof.Machine.execJumpIfTrue cond target s
  | .jumpIfFalse cond target => Sys2Proof.Machine.execJumpIfFalse cond target s
  | .add dst a b => Sys2Proof.Machine.execAdd dst a b s
  | .multiply dst a b => Sys2Proof.Machine.execMultiply dst a b s
  | .mod dst a b => Sys2Proof.Machine.execMod dst a b s
  | .bitwiseAnd dst a b => Sys2Proof.Machine.execBitwiseAnd dst a b s
  | .bitwiseOr dst a b => Sys2Proof.Machine.execBitwiseOr dst a b s
  | .bitwiseNot dst a => Sys2Proof.Machine.execBitwiseNot dst a s
  | .memoryRead dst addr => Sys2Proof.Machine.execMemoryRead dst addr s
  | .memoryWrite addr val => Sys2Proof.Machine.execMemoryWrite addr val s
  | .functionCall target => Sys2Proof.Machine.execFunctionCall target s
  | .functionReturn => Sys2Proof.Machine.execFunctionReturn s
  | .printChar val => Sys2Proof.Machine.execPrintChar val s
  | .readChar dst => Sys2Proof.Machine.execReadChar dst s
  | .noOp => Sys2Proof.Machine.execNoOp s

end Sys2Proof.Machine
end

