-- ==== Sys2Proof/Machine/Cycle.lean ====
section
/-! DEFINITION. The instruction cycle (spec 40_fetch_decode_execute.md): the FSM's five transitions one by one (R69 to
R73), the run of transitions up to the next instruction boundary, and one whole instruction as the spec composes it
(R76). -/

namespace Sys2Proof.Machine

/-! ### The FSM, one transition at a time -/

/-- `FETCH_OP` (R69). -/
def fsmFetchOp (s : State) : State :=
  match s.mem.cellAt s.pc.toNat with
  | none => raiseFault .fetchOutOfRange s.pc { s with opaddr := s.pc }
  | some w =>
    match opcodeFormat w with
    | none => raiseFault .unrecognizedOpcode w { s with opaddr := s.pc, opc := w, pc := s.pc + 1 }
    | some f =>
      { s with
        opaddr := s.pc
        opc := w
        pc := s.pc + 1
        k := 0
        fsm := if f.arity = 0 then .execute else .fetchOpnd }

/-- `FETCH_OPND` (R70). The first and the last arm are for latches no fetch wrote (log entry 6). -/
def fsmFetchOpnd (s : State) : Result :=
  match opcodeFormat s.opc with
  | none => .fault .latchesInconsistent
  | some f =>
    if h : s.k.val < 3 then
      match s.mem.cellAt s.pc.toNat with
      | none => finishFault .fetchOutOfRange s.pc s
      | some u =>
        match decodeOperand u with
        | none => finishFault .invalidOperand u s
        | some x =>
          .next { s with
            opnd := s.opnd.set s.k.val x
            pc := s.pc + 1
            k := s.k + 1
            fsm := if s.k.val + 1 = f.arity then .execute else .fetchOpnd }
    else .fault .latchesInconsistent

/-- `EXECUTE` (R71): the rule of the instruction OPC with the operands in OPND. -/
def fsmExecute (s : State) : Result :=
  match opcodeFormat s.opc with
  | none => .fault .latchesInconsistent
  | some f => exec (f.build s.opnd[0] s.opnd[1] s.opnd[2]) s

/-- `CHECK` (R73): the post-execution `pc` against the breakpoint set. -/
def fsmCheck (s : State) : State :=
  if s.atBreakpoint then suspend .breakpoint s else { s with fsm := .fetchOp }

/-- One transition of the FSM (R67). STOPPED is left only by the host (60_exceptions.md R120). -/
def fsmStep (s : State) : Result :=
  match s.fsm with
  | .stopped => .next s
  | .fetchOp => .next (fsmFetchOp s)
  | .fetchOpnd => fsmFetchOpnd s
  | .execute => fsmExecute s
  | .check => .next (fsmCheck s)

/-- An instruction boundary (00_scope.md R11): stopped, or about to fetch an opcode. -/
def State.atBoundary (s : State) : Bool := s.fsm == .stopped || s.fsm == .fetchOp

/-- Transitions of the FSM up to the next instruction boundary, at most `n`. An instruction takes at most six: the
opcode, three operands, EXECUTE and CHECK (R67, 00_scope.md R6 MAX_ARITY). -/
def fsmToBoundary : Nat → State → Result
  | 0, s => .next s
  | n + 1, s =>
    match fsmStep s with
    | .next t => if t.atBoundary then .next t else fsmToBoundary n t
    | .fault r => .fault r
    | .refused r => .refused r

/-! ### One whole instruction -/

/-- OPND after the operands of an instruction have been fetched (R70): a latch past the arity keeps its value. -/
def latchOperands (latches : Vector Operand 3) : List Operand → Vector Operand 3
  | [] => latches
  | [x] => latches.set 0 x
  | [x, y] => (latches.set 0 x).set 1 y
  | x :: y :: z :: _ => ((latches.set 0 x).set 1 y).set 2 z

/-- The state at the end of decode (R70): OPADDR, OPC, OPND and K are latched and `pc` is the post-fetch pc. -/
def latchInstr (i : Instr) (len : Nat) (s : State) : State :=
  { s with
    opaddr := s.pc
    opc := i.opcode
    opnd := latchOperands s.opnd i.operands
    k := Fin.ofNat 4 (len - 1)
    pc := s.pc + BitVec.ofNat 16 len
    fsm := .execute }

/-- What follows the execute step (R76): the breakpoint check after a normal outcome, nothing after a halt, a starve
or a fault. -/
def afterExecute (r : Result) : Result :=
  match r with
  | .next t => if t.fsm = .check then .next (fsmCheck t) else .next t
  | .fault e => .fault e
  | .refused e => .refused e

/-- One instruction from a boundary, `step()` of R76. -/
def instructionCycle (s : State) : Result :=
  match decode s.mem.cellAt s.pc.toNat with
  | .fetchFault p => finishFault .fetchOutOfRange (BitVec.ofNat 16 p) { s with opaddr := s.pc }
  | .unrecognized w _ => finishFault .unrecognizedOpcode w { s with opaddr := s.pc }
  | .invalidOperand u _ => finishFault .invalidOperand u { s with opaddr := s.pc }
  | .instr i len => afterExecute (exec i (latchInstr i len s))

end Sys2Proof.Machine
end

