-- ==== Sys2Proof/Machine/Step.lean ====
section
/-! DEFINITION. One step of CORE without the host (spec 40_fetch_decode_execute.md R76, 70_reset_and_hazards.md R140:
one transition per instruction). -/

namespace Sys2Proof.Machine

/-- From an instruction boundary, one whole instruction. STOPPED keeps all state: only the host leaves it
(60_exceptions.md R120). A state inside an instruction, which no step and no transaction leads to, is carried by the
FSM to its next boundary. -/
def step (s : State) : Host.Outcome State Fault Refusal :=
  match s.fsm with
  | .stopped => .next s
  | .fetchOp => instructionCycle s
  | .fetchOpnd => fsmToBoundary 5 s
  | .execute => fsmToBoundary 5 s
  | .check => fsmToBoundary 5 s

/-- `s` with an instruction of spec/opcode_table.json stored at `pc` and a run in progress: it stands for the host's
load of the words and its RUN (70_reset_and_hazards.md R136; log entry 9). -/
def State.withFetchWord (s : State) (nbits w : Nat) : State :=
  { s with
    mem := s.mem.storeCells s.pc.toNat (tableCells nbits w)
    status := .running
    fsm := .fetchOp }

end Sys2Proof.Machine
end

