-- ==== Sys2Proof/Machine/HostPort.lean ====
section
/-! DEFINITION. The host interface (spec 60_exceptions.md R121 to R131): the fourteen transactions, what each answers
and what it does. Arguments are numbers of any size, since the spec says which ones are REJECTED. -/

namespace Sys2Proof.Machine

/-- The transactions of R121. -/
inductive HostOp where
  | reset
  | loadImage (bytes : List ImageByte)
  | run
  | getStatus
  | getPc
  | getReg (i : Nat)
  | setReg (i v : Nat)
  | getMem (a : Nat)
  | setMem (a v : Nat)
  | getMemView
  | addBreakpoint (a : Nat)
  | setOutput (b : Nat)
  | appendInput (codes : List Nat)
  | readOutput
  deriving DecidableEq, Repr

/-- The data of an `OK` answer (R121, R123, R124, R131). -/
inductive HostData where
  | nothing
  | statusAndFault (status : BitVec 3) (cause : BitVec 4) (addr info : Word16)
  | pcValue (pc : Word16)
  | regValue (v : Word15)
  | cellValue (w : Word16)
  | memView (cells : List Word16)
  | output (values : List Word15)
  deriving DecidableEq, Repr

/-- The answer to a transaction: `OK` plus data, or `REJECTED` (R121). -/
inductive HostReply where
  | ok (data : HostData)
  | rejected
  deriving DecidableEq, Repr

/-- `RESET` (70_reset_and_hazards.md R134): the reset value everywhere. The parameters of R7 are no state (10_state.md
R34) and stay. -/
def hostReset (s : State) : State := { State.reset with params := s.params }

/-- A cell of the image: 16 bits, little-endian (20_memory.md R40). -/
def imageCell (lo hi : ImageByte) : Word16 := BitVec.ofNat 16 (lo.toNat + 256 * hi.toNat)

/-- The cells of an image in order (R40); an odd byte at the end makes none. -/
def imageCells : List ImageByte → List Word16
  | lo :: hi :: bytes => imageCell lo hi :: imageCells bytes
  | _ => []

/-- Whether `RUN` is accepted in a stopped CORE (40_fetch_decode_execute.md R68): not while FAULTED. -/
def Status.acceptsRun : Status → Bool
  | .idle => true
  | .running => false
  | .halted => true
  | .breakpoint => true
  | .inputStarved => true
  | .faulted => false

/-- A length within a capacity of R7. -/
def withinCapacity (capacity : Option Nat) (n : Nat) : Bool :=
  match capacity with
  | none => true
  | some cap => decide (n ≤ cap)

/-- An answer with no data and a new state. -/
def accept (s : State) : HostReply × State := (.ok .nothing, s)

/-- An answer that reads and changes nothing. -/
def answer (data : HostData) (s : State) : HostReply × State := (.ok data, s)

/-- A refusal, with no state change (R121). -/
def reject (s : State) : HostReply × State := (.rejected, s)

/-- `LOAD_IMAGE` (R125). -/
def hostLoadImage (bytes : List ImageByte) (s : State) : HostReply × State :=
  if bytes.length % 2 = 1 then reject s
  else if memWords < bytes.length / 2 then reject s
  else accept { s with mem := s.mem.storeCells 0 (imageCells bytes) }

/-- `RUN` (R68): STATUS and the FSM change, and nothing else. -/
def hostRun (s : State) : HostReply × State :=
  if s.status.acceptsRun then accept { s with status := .running, fsm := .fetchOp } else reject s

/-- `GET_STATUS` (R124). -/
def hostGetStatus (s : State) : HostReply × State :=
  answer (.statusAndFault s.status.code s.faultCause.code s.faultAddr s.faultInfo) s

/-- `GET_REG` (R123). -/
def hostGetReg (i : Nat) (s : State) : HostReply × State :=
  if h : i < 8 then answer (.regValue (s.reg ⟨i, h⟩)) s else reject s

/-- `SET_REG` (R126). -/
def hostSetReg (i v : Nat) (s : State) : HostReply × State :=
  if h : i < 8 ∧ v < 32768 then accept (s.setReg ⟨i, h.1⟩ (BitVec.ofNat 15 v)) else reject s

/-- `GET_MEM` (R123). -/
def hostGetMem (a : Nat) (s : State) : HostReply × State :=
  if a < memWords then answer (.cellValue (s.mem.read a)) s else reject s

/-- `SET_MEM` (R130): any 16-bit value. -/
def hostSetMem (a v : Nat) (s : State) : HostReply × State :=
  if a < memWords ∧ v < 65536 then accept { s with mem := s.mem.write a (BitVec.ofNat 16 v) } else reject s

/-- `ADD_BREAKPOINT` (R127): an address already in the set changes nothing, whatever the capacity. -/
def hostAddBreakpoint (a : Nat) (s : State) : HostReply × State :=
  if memWords ≤ a then reject s
  else if BitVec.ofNat 15 a ∈ s.bps then accept s
  else if withinCapacity s.params.breakpointCapacity (s.bps.length + 1) then
    accept { s with bps := breakpointInsert (BitVec.ofNat 15 a) s.bps }
  else reject s

/-- `SET_OUTPUT` (R129). -/
def hostSetOutput (b : Nat) (s : State) : HostReply × State :=
  if b < 2 then accept { s with outEn := b == 1 } else reject s

/-- `APPEND_INPUT` (R128): all the codes or none. -/
def hostAppendInput (codes : List Nat) (s : State) : HostReply × State :=
  if codes.any (fun c => decide (32767 < c)) then reject s
  else if withinCapacity s.params.inputCapacity (s.inq.length + codes.length) then
    accept { s with inq := s.inq ++ codes.map (BitVec.ofNat 15) }
  else reject s

/-- `READ_OUTPUT` (R131): what has not been read before. -/
def hostReadOutput (s : State) : HostReply × State :=
  (.ok (.output (s.outlog.drop s.outRead)), { s with outRead := s.outlog.length })

/-- The transactions in a stopped CORE (R121). -/
def hostOpStopped (op : HostOp) (s : State) : HostReply × State :=
  match op with
  | .reset => accept (hostReset s)
  | .loadImage bytes => hostLoadImage bytes s
  | .run => hostRun s
  | .getStatus => hostGetStatus s
  | .getPc => answer (.pcValue s.pc) s
  | .getReg i => hostGetReg i s
  | .setReg i v => hostSetReg i v s
  | .getMem a => hostGetMem a s
  | .setMem a v => hostSetMem a v s
  | .getMemView => answer (.memView ((List.range memWords).map s.mem.read)) s
  | .addBreakpoint a => hostAddBreakpoint a s
  | .setOutput b => hostSetOutput b s
  | .appendInput codes => hostAppendInput codes s
  | .readOutput => hostReadOutput s

/-- A transaction (R121, R122): RESET is accepted at any time, every other one only while the FSM is STOPPED. -/
def hostOp (op : HostOp) (s : State) : HostReply × State :=
  if op = .reset then accept (hostReset s)
  else if s.fsm = .stopped then hostOpStopped op s
  else reject s

end Sys2Proof.Machine
end

