-- ==== Sys2Proof/WellFormed.lean ====
section
/-! DEFINITION. Well-formed instructions: the destination operand, where there is one, is a register reference (spec
30_encoding.md R58). Widths of literals and register numbers hold by type. -/

namespace Sys2Proof

/-- The destination operand (role `D` of R54), if the instruction has one. -/
def Instr.destination : Instr → Option Operand
  | .halt => none
  | .setRegister dst _ => some dst
  | .push _ => none
  | .pop dst => some dst
  | .compareEquals dst _ _ => some dst
  | .compareGreaterThan dst _ _ => some dst
  | .jump _ => none
  | .jumpIfTrue _ _ => none
  | .jumpIfFalse _ _ => none
  | .add dst _ _ => some dst
  | .multiply dst _ _ => some dst
  | .mod dst _ _ => some dst
  | .bitwiseAnd dst _ _ => some dst
  | .bitwiseOr dst _ _ => some dst
  | .bitwiseNot dst _ => some dst
  | .memoryRead dst _ => some dst
  | .memoryWrite _ _ => none
  | .functionCall _ => none
  | .functionReturn => none
  | .printChar _ => none
  | .readChar dst => some dst
  | .noOp => none

/-- An operand that can be a destination (R58). -/
def Operand.isRegister : Operand → Bool
  | .lit _ => false
  | .reg _ => true

/-- The one check the spec makes of an instruction beyond its encoding (R58). An instruction that fails it still
decodes, and taking it is the fault INVALID_DESTINATION. -/
def Instr.wellFormed (i : Instr) : Bool :=
  match i.destination with
  | none => true
  | some dst => dst.isRegister

end Sys2Proof
end

