-- ==== Sys2Proof/Safety.lean ====
section
/-! DEFINITION. What a safe run is, and the terms the statements are made in: the agents' events, the reachable
states, the invariant, and what an instruction changes and leaves alone. -/

namespace Sys2Proof.Machine

/-! ### Runs: CORE and the host, event by event -/

/-- One event: CORE takes a step, or the host issues a transaction (60_exceptions.md R122). -/
inductive Event where
  | core
  | host (op : HostOp)
  deriving DecidableEq, Repr

/-- What an event leads to. -/
def Event.outcome : Event → State → Result
  | .core, s => step s
  | .host op, s => .next (hostOp op s).2

/-- The states a CORE with the parameters `p` can be in, whatever the host does: reset, and then events in any
order. -/
inductive Reachable (p : Params) : State → Prop where
  | reset : Reachable p { State.reset with params := p }
  | event (e : Event) (s t : State) : Reachable p s → e.outcome s = .next t → Reachable p t

/-- `n` steps of CORE from `s` end in `t` without the model stopping. -/
def StepsTo (n : Nat) (s t : State) : Prop := Host.Core.run Sys2Proof.core n s = .next t

/-- The host issues RUN and CORE takes `n` steps. -/
def runFor (n : Nat) (s : State) : Result := Host.Core.run Sys2Proof.core n (hostOp .run s).2

/-- `n` RUNs in a row, each of one instruction. -/
def runsOfOneStep : Nat → State → Result
  | 0, s => .next s
  | n + 1, s =>
    match runFor 1 s with
    | .next t => runsOfOneStep n t
    | .fault r => .fault r
    | .refused r => .refused r

/-! ### The invariant of a CORE at an instruction boundary -/

/-- `STATUS = RUNNING` exactly when the FSM is not STOPPED (40_fetch_decode_execute.md R67). -/
def State.Coherent (s : State) : Prop := s.status = .running ↔ s.fsm ≠ .stopped

/-- The latches are as the fetch wrote them (R69, R70): inside an instruction OPC is an opcode, and while operands are
fetched K is below its arity. Every state at an instruction boundary is so. -/
def State.LatchesConsistent (s : State) : Prop :=
  (s.fsm = .fetchOpnd → ∃ f, opcodeFormat s.opc = some f ∧ s.k.val < f.arity) ∧
  (s.fsm = .execute → ∃ f, opcodeFormat s.opc = some f)

/-- A length within a capacity of 00_scope.md R7. -/
def Fits (capacity : Option Nat) (n : Nat) : Prop := ∀ cap, capacity = some cap → n ≤ cap

/-- What holds at every instruction boundary. -/
structure State.Inv (s : State) : Prop where
  /-- memory is in canonical form and inside the address space (20_memory.md R35) -/
  memory : s.mem.wf
  /-- `pc` is at most 32768 (10_state.md R18) -/
  pcBound : s.pc.toNat ≤ 32768
  /-- a stack entry is a pushed `Word15` or a return address of at most 32768 (R18) -/
  stackBound : ∀ v ∈ s.stack, v.toNat ≤ 32768
  /-- the stack's depth is within STACK_CAPACITY (R22, R33) -/
  stackFits : Fits s.params.stackCapacity s.stack.length
  /-- the queue's length is within INPUT_CAPACITY (R23) -/
  inputFits : Fits s.params.inputCapacity s.inq.length
  /-- the number of breakpoints is within BREAKPOINT_CAPACITY (60_exceptions.md R127) -/
  breakpointsFit : Fits s.params.breakpointCapacity s.bps.length
  /-- the breakpoint list is the canonical list of its set (log entry 3) -/
  breakpointsSorted : s.bps.Pairwise (· < ·)
  /-- an instruction boundary (R67) -/
  boundary : s.fsm = .stopped ∨ s.fsm = .fetchOp
  /-- STATUS and the FSM agree (R67) -/
  coherent : s.Coherent
  /-- there is a fault cause exactly in FAULTED (R27, R113) -/
  faultedIffCause : s.status = .faulted ↔ s.faultCause ≠ .noFault
  /-- without a fault the record is 0 (R27) -/
  noFaultRecord : s.status ≠ .faulted → s.faultAddr = 0 ∧ s.faultInfo = 0
  /-- FAULT_ADDR is where `pc` stays (60_exceptions.md R112) -/
  faultAddrIsPc : s.status = .faulted → s.faultAddr = s.pc
  /-- READ_OUTPUT has read a part of what was emitted (R131) -/
  outputRead : s.outRead ≤ s.outlog.length

/-! ### Hidden state -/

/-- The state with its latches forgotten: what remains is what any rule can read at an instruction boundary
(10_state.md R32). -/
def State.forgetLatches (s : State) : State :=
  { s with opaddr := 0, opc := 0, opnd := Vector.replicate 3 (.lit 0), k := 0 }

/-! ### What an instruction changes -/

/-- The parts of the state a statement can say are unchanged. -/
inductive Part where
  | regs | pc | mem | stack | inq | bps | outEn | status | faultRecord | fsm | latches | outlog | outRead | params
  deriving DecidableEq, Repr

/-- A part reads the same in two states: every register, every cell of memory, every entry. -/
def Part.Same (s t : State) : Part → Prop
  | .regs => ∀ i, t.reg i = s.reg i
  | .pc => t.pc = s.pc
  | .mem => ∀ a, t.mem.read a = s.mem.read a
  | .stack => t.stack = s.stack
  | .inq => t.inq = s.inq
  | .bps => t.bps = s.bps
  | .outEn => t.outEn = s.outEn
  | .status => t.status = s.status
  | .faultRecord => t.faultCause = s.faultCause ∧ t.faultAddr = s.faultAddr ∧ t.faultInfo = s.faultInfo
  | .fsm => t.fsm = s.fsm
  | .latches => t.opaddr = s.opaddr ∧ t.opc = s.opc ∧ t.opnd = s.opnd ∧ t.k = s.k
  | .outlog => t.outlog = s.outlog
  | .outRead => t.outRead = s.outRead
  | .params => t.params = s.params

/-- Nothing changes from `s` to `t` but the parts listed. -/
def OnlyChanges (parts : List Part) (s t : State) : Prop := ∀ p, p ∉ parts → p.Same s t

/-- Register `d` holds the number `n` and every other register is unchanged (10_state.md R17). -/
def WritesReg (d : RegIdx) (n : Nat) (s t : State) : Prop :=
  (t.reg d).toNat = n ∧ ∀ j, j ≠ d → t.reg j = s.reg j

/-- The cell at `a` holds `n` and every other cell is unchanged (20_memory.md R42). -/
def WritesCell (a n : Nat) (s t : State) : Prop :=
  (t.mem.read a).toNat = n ∧ ∀ b, b ≠ a → t.mem.read b = s.mem.read b

/-- The normal end of an execute step (40_fetch_decode_execute.md R71): the breakpoint check is next, and nothing
changed but the parts listed and the FSM. -/
def EndsNormally (parts : List Part) (s t : State) : Prop :=
  t.fsm = .check ∧ OnlyChanges (.fsm :: parts) s t

/-- The parts fault entry writes (60_exceptions.md R112). -/
def faultParts : List Part := [.faultRecord, .pc, .status, .fsm]

/-- What fault entry leaves (R112) for the instruction at `opaddr`: the fault record, `pc` at the opcode, STATUS and
the FSM. -/
def FaultEntered (cause : FaultCause) (info : Nat) (opaddr : Word16) (t : State) : Prop :=
  t.faultCause = cause ∧ t.faultAddr = opaddr ∧ t.faultInfo.toNat = info ∧ t.pc = opaddr ∧
  t.status = .faulted ∧ t.fsm = .stopped

/-- `exec i s` takes the fault `cause` with FAULT_INFO `info`, and has no other effect. -/
def ExecFaults (i : Instr) (cause : FaultCause) (info : Nat) (s : State) : Prop :=
  ∃ t, exec i s = .next t ∧ FaultEntered cause info s.opaddr t ∧ OnlyChanges faultParts s t

/-- `step s` takes the fault `cause` with FAULT_INFO `info` for the instruction at `pc`, and has no other effect on
anything the host or a program can observe. -/
def StepFaults (cause : FaultCause) (info : Nat) (s : State) : Prop :=
  ∃ t, step s = .next t ∧ FaultEntered cause info s.pc t ∧ OnlyChanges (.latches :: faultParts) s t

/-- The value of a source operand as the spec says it (30_encoding.md R59), as a number. -/
def operandValue (s : State) : Operand → Nat
  | .lit v => v.toNat
  | .reg i => (s.reg i).toNat

/-- A literal destination faults (30_encoding.md R58), whatever else is wrong with the instruction. -/
def LiteralDestinationFaults (i : Operand → Instr) (s : State) : Prop :=
  ∀ v, ExecFaults (i (.lit v)) .invalidDestination v.toNat s

/-- The fault causes each instruction can raise in its execute step (60_exceptions.md R109). -/
def possibleCauses : Instr → List FaultCause
  | .halt => []
  | .setRegister _ _ => [.invalidDestination]
  | .push _ => [.stackOverflow]
  | .pop _ => [.invalidDestination, .stackUnderflow, .valueOutOfRange]
  | .compareEquals _ _ _ => [.invalidDestination]
  | .compareGreaterThan _ _ _ => [.invalidDestination]
  | .jump _ => []
  | .jumpIfTrue _ _ => []
  | .jumpIfFalse _ _ => []
  | .add _ _ _ => [.invalidDestination]
  | .multiply _ _ _ => [.invalidDestination]
  | .mod _ _ _ => [.invalidDestination, .divideByZero]
  | .bitwiseAnd _ _ _ => [.invalidDestination]
  | .bitwiseOr _ _ _ => [.invalidDestination]
  | .bitwiseNot _ _ => [.invalidDestination]
  | .memoryRead _ _ => [.invalidDestination, .valueOutOfRange]
  | .memoryWrite _ _ => []
  | .functionCall _ => [.stackOverflow]
  | .functionReturn => [.stackUnderflow]
  | .printChar _ => []
  | .readChar _ => [.invalidDestination]
  | .noOp => []

/-- Control is at a breakpoint address (40_fetch_decode_execute.md R73). -/
def AtBreakpoint (t : State) : Prop := ∃ b ∈ t.bps, b.toNat = t.pc.toNat

end Sys2Proof.Machine
end

