-- ==== Sys2Proof/Certificates/Slice0/Obligations.lean ====
section
/-! DEFINITION. The statements for the provers. Each follows the rule or rules of spec/ its docstring names; numbers
are as the spec writes them. The terms are those of Sys2Proof/Safety.lean. -/

open Sys2Proof Sys2Proof.Machine

/-! ### Encoding and decoding: 30_encoding.md -/

/-- R52, R54, R56, R63: where the words of an instruction stand in memory, decoding there gives that instruction and
its length, at every address and for every operand. -/
def Obligations.DecodeReadsBackEveryEncoding : Prop :=
  ∀ (cellAt : Nat → Option Word16) (a : Nat) (i : Instr),
    (∀ j w, (encode i)[j]? = some w → cellAt (a + j) = some w) →
      decode cellAt a = .instr i (encode i).length

/-- R52, R62, R63: no two word sequences decode to one instruction: what decoding gives stands in memory word for
word. -/
def Obligations.DecodedInstructionStandsInMemory : Prop :=
  ∀ (cellAt : Nat → Option Word16) (a : Nat) (i : Instr) (len : Nat),
    decode cellAt a = .instr i len →
      len = (encode i).length ∧ ∀ j w, (encode i)[j]? = some w → cellAt (a + j) = some w

/-- 95_test_vectors.md: words written out by the spec, at least one of every family, decode to what they stand
for. -/
def Obligations.SpecWordsDecode : Prop :=
  decode (cellsOf [0]) 0 = .instr .halt 1 ∧
  decode (cellsOf [1, 32768, 7]) 0 = .instr (.setRegister (.reg 0) (.lit 7)) 3 ∧
  decode (cellsOf [3, 32770]) 0 = .instr (.pop (.reg 2)) 2 ∧
  decode (cellsOf [5, 32774, 32768, 32770]) 0 = .instr (.compareGreaterThan (.reg 6) (.reg 0) (.reg 2)) 4 ∧
  decode (cellsOf [7, 32768, 6]) 0 = .instr (.jumpIfTrue (.reg 0) (.lit 6)) 3 ∧
  decode (cellsOf [17, 32769]) 0 = .instr (.functionCall (.reg 1)) 2 ∧
  decode (cellsOf [11, 32770, 32769, 1000]) 0 = .instr (.mod (.reg 2) (.reg 1) (.lit 1000)) 4 ∧
  decode (cellsOf [14, 32771, 32770]) 0 = .instr (.bitwiseNot (.reg 3) (.reg 2)) 3 ∧
  decode (cellsOf [16, 100, 32770]) 0 = .instr (.memoryWrite (.lit 100) (.reg 2)) 3 ∧
  decode (cellsOf [20, 32770]) 0 = .instr (.readChar (.reg 2)) 2

/-- R56, R59: the three ranges of an operand word, and the value an operand resolves to. -/
def Obligations.OperandWordsAndTheirValues : Prop :=
  (∀ u : Word16,
    (u.toNat < 32768 → ∃ v, decodeOperand u = some (.lit v) ∧ v.toNat = u.toNat) ∧
    (32768 ≤ u.toNat → u.toNat ≤ 32775 → ∃ i, decodeOperand u = some (.reg i) ∧ i.val = u.toNat - 32768) ∧
    (32776 ≤ u.toNat → decodeOperand u = none)) ∧
  ∀ (s : State) (x : Operand), (resolve s x).toNat = operandValue s x ∧ operandValue s x < 32768

/-- R61: an opcode word of 22 or more is the sentinel of length 1, and a step on it faults with the word; one of 21 or
less never is. -/
def Obligations.UnrecognizedOpcodeFaults : Prop :=
  ∀ s : State, s.fsm = .fetchOp → s.pc.toNat < 32768 →
    (22 ≤ (s.mem.read s.pc.toNat).toNat →
      decode s.mem.cellAt s.pc.toNat = .unrecognized (s.mem.read s.pc.toNat) 1 ∧
      StepFaults .unrecognizedOpcode (s.mem.read s.pc.toNat).toNat s) ∧
    ((s.mem.read s.pc.toNat).toNat ≤ 21 → ∀ w len, decode s.mem.cellAt s.pc.toNat ≠ .unrecognized w len)

/-- R63, R110: decode stops at the first failing word in address order. Every word before the one reported is there;
the first is an opcode, the others are operands. -/
def Obligations.DecodeStopsAtTheFirstFailingWord : Prop :=
  ∀ (cellAt : Nat → Option Word16) (a p : Nat),
    (decode cellAt a = .fetchFault p →
      cellAt p = none ∧ a ≤ p ∧ p ≤ a + 3 ∧
      (a < p → ∃ w, cellAt a = some w ∧ w.toNat ≤ 21) ∧
      ∀ q, a < q → q < p → ∃ u, cellAt q = some u ∧ u.toNat ≤ 32775) ∧
    ∀ u, decode cellAt a = .invalidOperand u p →
      cellAt p = some u ∧ 32776 ≤ u.toNat ∧ a < p ∧ p ≤ a + 3 ∧
      (∃ w, cellAt a = some w ∧ w.toNat ≤ 21) ∧
      ∀ q, a < q → q < p → ∃ v, cellAt q = some v ∧ v.toNat ≤ 32775

/-! ### The instruction cycle: 40_fetch_decode_execute.md -/

/-- R70, R71, R73, R76: a step from a boundary is the execute step of the decoded instruction, on the state with the
latches and the post-fetch `pc` set, and then, after a normal outcome, the breakpoint check of the post-execution
`pc`. -/
def Obligations.StepRunsTheDecodedInstruction : Prop :=
  ∀ (s : State) (i : Instr) (len : Nat),
    s.fsm = .fetchOp → decode s.mem.cellAt s.pc.toNat = .instr i len →
      ∃ e t, e.opaddr = s.pc ∧ e.pc = s.pc + BitVec.ofNat 16 len ∧ e.opc = i.opcode ∧ e.k.val + 1 = len ∧
        e.fsm = .execute ∧ OnlyChanges [.pc, .fsm, .latches] s e ∧
        exec i e = .next t ∧
        (t.fsm = .check → AtBreakpoint t → step s = .next { t with status := .breakpoint, fsm := .stopped }) ∧
        (t.fsm = .check → ¬ AtBreakpoint t → step s = .next { t with fsm := .fetchOp }) ∧
        (t.fsm ≠ .check → step s = .next t)

/-- R63, R69, R70, R76: a step where decoding fails takes the fault of the failing word, at the opcode's address. -/
def Obligations.StepFaultsWhereDecodingFails : Prop :=
  ∀ s : State, s.fsm = .fetchOp →
    (∀ p, decode s.mem.cellAt s.pc.toNat = .fetchFault p → 32768 ≤ p ∧ StepFaults .fetchOutOfRange p s) ∧
    (∀ w len, decode s.mem.cellAt s.pc.toNat = .unrecognized w len →
      22 ≤ w.toNat ∧ StepFaults .unrecognizedOpcode w.toNat s) ∧
    ∀ u p, decode s.mem.cellAt s.pc.toNat = .invalidOperand u p →
      32776 ≤ u.toNat ∧ StepFaults .invalidOperand u.toNat s

/-- R73: the CHECK transition; and what a step does about breakpoints: a run goes on only where `pc` is in no
breakpoint, ends with BREAKPOINT only where it is, and a halt, a starve or a fault is not checked. -/
def Obligations.BreakpointsStopOnArrival : Prop :=
  (∀ s : State, s.fsm = .check → ∃ t, fsmStep s = .next t ∧
    (AtBreakpoint s → t.status = .breakpoint ∧ t.fsm = .stopped ∧ OnlyChanges [.status, .fsm] s t) ∧
    (¬ AtBreakpoint s → t.fsm = .fetchOp ∧ OnlyChanges [.fsm] s t)) ∧
  (∀ s t : State, s.fsm = .fetchOp → s.status = .running → step s = .next t →
    t.bps = s.bps ∧ (t.status = .running → ¬ AtBreakpoint t) ∧ (t.status = .breakpoint → AtBreakpoint t)) ∧
  ∀ (s t : State) (i : Instr) (len : Nat), s.fsm = .fetchOp → decode s.mem.cellAt s.pc.toNat = .instr i len →
    exec i (latchInstr i len s) = .next t → t.status = .halted ∨ t.status = .inputStarved ∨ t.status = .faulted →
    s.status = .running → step s = .next t

/-- R69, R70: the two fetch transitions of the FSM, the faults they raise and what they latch. -/
def Obligations.FsmFetchTransitions : Prop :=
  (∀ s : State, s.fsm = .fetchOp → ∃ t, fsmStep s = .next t ∧ t.opaddr = s.pc ∧
    (32768 ≤ s.pc.toNat →
      FaultEntered .fetchOutOfRange s.pc.toNat s.pc t ∧ OnlyChanges (.latches :: faultParts) s t) ∧
    (s.pc.toNat < 32768 → t.opc = s.mem.read s.pc.toNat ∧
      (opcodeFormat t.opc = none →
        FaultEntered .unrecognizedOpcode t.opc.toNat s.pc t ∧ OnlyChanges (.latches :: faultParts) s t) ∧
      ∀ f, opcodeFormat t.opc = some f →
        t.pc.toNat = s.pc.toNat + 1 ∧ t.k.val = 0 ∧ t.opnd = s.opnd ∧
        (f.arity = 0 → t.fsm = .execute) ∧ (f.arity ≠ 0 → t.fsm = .fetchOpnd) ∧
        OnlyChanges [.latches, .pc, .fsm] s t)) ∧
  ∀ (s : State) (f : Format), s.fsm = .fetchOpnd → opcodeFormat s.opc = some f → s.k.val < f.arity →
    ∃ t, fsmStep s = .next t ∧
      (32768 ≤ s.pc.toNat → FaultEntered .fetchOutOfRange s.pc.toNat s.opaddr t ∧ OnlyChanges faultParts s t) ∧
      (s.pc.toNat < 32768 → decodeOperand (s.mem.read s.pc.toNat) = none →
        FaultEntered .invalidOperand (s.mem.read s.pc.toNat).toNat s.opaddr t ∧ OnlyChanges faultParts s t) ∧
      ∀ x, s.pc.toNat < 32768 → decodeOperand (s.mem.read s.pc.toNat) = some x →
        t.pc.toNat = s.pc.toNat + 1 ∧ t.k.val = s.k.val + 1 ∧ t.opaddr = s.opaddr ∧ t.opc = s.opc ∧
        t.opnd[s.k.val]? = some x ∧ (∀ j, j ≠ s.k.val → t.opnd[j]? = s.opnd[j]?) ∧
        (s.k.val + 1 = f.arity → t.fsm = .execute) ∧ (s.k.val + 1 ≠ f.arity → t.fsm = .fetchOpnd) ∧
        OnlyChanges [.latches, .pc, .fsm] s t

/-- R67: every transition of the FSM keeps STATUS = RUNNING exactly when the FSM is not STOPPED, and the latches as the
fetch wrote them, and the model never stops in such a state. -/
def Obligations.FsmKeepsStatusAndLatchesConsistent : Prop :=
  ∀ s : State, s.Coherent → s.LatchesConsistent →
    ∃ t, fsmStep s = .next t ∧ t.Coherent ∧ t.LatchesConsistent

/-- R72, R76: the FSM, transition by transition, reaches the state of the one whole step in at most six transitions,
up to the latches, which nothing can observe (10_state.md R32). -/
def Obligations.FsmReachesTheStateOfTheStep : Prop :=
  ∀ s : State, s.fsm = .fetchOp →
    ∃ t u, step s = .next t ∧ fsmToBoundary 6 s = .next u ∧
      t.atBoundary = true ∧ u.forgetLatches = t.forgetLatches

/-- 10_state.md R32: the latches are hidden. Two states at a boundary that differ in nothing else step to states that
differ in nothing else, and the host gets the same answers and makes the same changes. -/
def Obligations.LatchesAreNotObservable : Prop :=
  ∀ s s' : State, s.atBoundary = true → s'.forgetLatches = s.forgetLatches →
    (∃ t t', step s = .next t ∧ step s' = .next t' ∧ t'.forgetLatches = t.forgetLatches) ∧
    ∀ op, (hostOp op s').1 = (hostOp op s).1 ∧
      (hostOp op s').2.forgetLatches = (hostOp op s).2.forgetLatches

/-! ### Invariants -/

/-- 10_state.md R33: the state after reset satisfies the invariant, for every value of the parameters of R7, which the
model holds in State (log entry 5). -/
def Obligations.ResetSatisfiesTheInvariant : Prop :=
  ∀ p : Params, State.Inv { State.reset with params := p }

/-- From every state that satisfies the invariant a step answers a next state that satisfies it: `pc` and the stack
entries stay at most 32768 (R18), the stack within its capacity (R22), STATUS and the FSM agree (R67), and the fault
record is as R27 says. That memory and the breakpoint set keep their canonical forms is about the model's way of
holding them (log entries 1 and 3). -/
def Obligations.StepKeepsTheInvariant : Prop :=
  ∀ s : State, s.Inv → ∃ t, step s = .next t ∧ t.Inv

/-- Every host transaction keeps the invariant, accepted or not (R121 to R131); the canonical forms in it are the
model's (log entries 1 and 3). -/
def Obligations.HostKeepsTheInvariant : Prop :=
  ∀ (s : State) (op : HostOp), s.Inv → (hostOp op s).2.Inv

/-- Whatever the host does and whenever it does it, no reachable state stops the model. The parameters of R7 are what
they were at reset: that they ride in State and RESET keeps them is the model's choice (log entry 5). -/
def Obligations.ReachableStatesNeverStopTheModel : Prop :=
  ∀ (p : Params) (s : State), Reachable p s → s.Inv ∧ s.params = p ∧ ∃ t, step s = .next t

/-! ### Rules about every instruction -/

/-- R71: the four outcomes of an execute step, for every instruction in every state. -/
def Obligations.ExecuteStepEndsInOneOfFourOutcomes : Prop :=
  ∀ (i : Instr) (s : State), ∃ t, exec i s = .next t ∧
    (EndsNormally [.regs, .pc, .mem, .stack, .inq, .outlog] s t ∨
     (i = .halt ∧ t.status = .halted ∧ t.fsm = .stopped ∧ OnlyChanges [.status, .fsm] s t) ∨
     (∃ d, i = .readChar (.reg d) ∧ s.inq = [] ∧ t.pc = s.opaddr ∧ t.status = .inputStarved ∧ t.fsm = .stopped ∧
       OnlyChanges [.pc, .status, .fsm] s t) ∨
     ∃ cause info, cause ≠ .noFault ∧ FaultEntered cause info s.opaddr t ∧ OnlyChanges faultParts s t)

/-- No instruction writes a register but the one its destination operand names: 10_state.md R17, which the spec itself
derives from its instruction rules. -/
def Obligations.OnlyTheDestinationRegisterIsWritten : Prop :=
  ∀ (i : Instr) (s t : State) (j : RegIdx), exec i s = .next t → i.destination ≠ some (.reg j) → t.reg j = s.reg j

/-- Which instructions use memory, the stack, the queue, the output and `pc`, and how: the table of R82 and R38, which
the spec derives from its instruction rules, and 10_state.md R19. -/
def Obligations.EachStoreIsUsedOnlyByItsInstructions : Prop :=
  ∀ (i : Instr) (s t : State), exec i s = .next t →
    (∀ a, t.mem.read a ≠ s.mem.read a → ∃ x v, i = .memoryWrite x v ∧ resolveAddr s x = a) ∧
    (t.stack = s.stack ∨
      (∃ v, t.stack = v :: s.stack ∧ ((∃ x, i = .push x) ∨ ∃ x, i = .functionCall x)) ∨
      ∃ v, s.stack = v :: t.stack ∧ ((∃ x, i = .pop x) ∨ i = .functionReturn)) ∧
    (t.inq = s.inq ∨ ∃ v d, s.inq = v :: t.inq ∧ i = .readChar (.reg d)) ∧
    (t.outlog = s.outlog ∨ ∃ v x, t.outlog = s.outlog ++ [v] ∧ i = .printChar x) ∧
    (t.pc = s.pc ∨ t.pc = s.opaddr ∨ (∃ x, i = .jump x) ∨ (∃ c x, i = .jumpIfTrue c x) ∨
      (∃ c x, i = .jumpIfFalse c x) ∨ (∃ x, i = .functionCall x) ∨ i = .functionReturn)

/-- The causes an execute step can raise are those listed for its instruction in 60_exceptions.md R109, which the spec
derives from its instruction rules. -/
def Obligations.FaultCausesOfEachInstruction : Prop :=
  ∀ (i : Instr) (s t : State), exec i s = .next t → t.fsm = .stopped → t.status = .faulted →
    t.faultCause ∈ possibleCauses i

/-- 60_exceptions.md R112: a fault is precise. A step that ends in FAULTED has written the fault record and set `pc`
to the opcode, stopped, and changed nothing else. -/
def Obligations.FaultsArePrecise : Prop :=
  ∀ s t : State, s.fsm = .fetchOp → s.status = .running → step s = .next t → t.status = .faulted →
    t.faultCause ≠ .noFault ∧ t.faultAddr = s.pc ∧ t.pc = s.pc ∧ t.fsm = .stopped ∧
    OnlyChanges (.latches :: faultParts) s t

/-- 60_exceptions.md R113: a fault is sticky. CORE does not move, RUN is refused, no transaction but RESET changes
STATUS or the fault record, every other one is answered as in a CORE that has not faulted, and RESET leaves
FAULTED. -/
def Obligations.FaultsAreSticky : Prop :=
  ∀ s : State, s.Inv → s.status = .faulted →
    step s = .next s ∧ hostOp .run s = (.rejected, s) ∧
    (∀ op, op ≠ .reset → (hostOp op s).2.status = .faulted ∧ Part.Same s (hostOp op s).2 .faultRecord) ∧
    (∀ op, op ≠ .run → op ≠ .getStatus → (hostOp op s).1 = (hostOp op { s with status := .idle }).1) ∧
    hostOp .getStatus s = (.ok (.statusAndFault 5 s.faultCause.code s.faultAddr s.faultInfo), s) ∧
    (hostOp .reset s).2.status = .idle

/-- R74: a run goes on at an instruction boundary or ends in one of four ways. -/
def Obligations.RunHasExactlyFourExits : Prop :=
  ∀ s : State, s.fsm = .fetchOp → s.status = .running → ∃ t, step s = .next t ∧
    ((t.fsm = .fetchOp ∧ t.status = .running) ∨
     (t.fsm = .stopped ∧ t.status ∈ [.halted, .breakpoint, .inputStarved, .faulted]))

/-- 10_state.md R28, R106: OUT_EN decides what is emitted and nothing else. From two states that differ in OUT_EN and
in what was emitted before, and in nothing else, the steps end in states that differ so too. One and the same sequence
`out` is what the step adds to the output wherever OUT_EN is 1. -/
def Obligations.OutputEnableOnlyAffectsTheOutput : Prop :=
  ∀ (s : State) (b : Bool) (log : List Word15), s.atBoundary = true →
    ∃ t out, step s = .next t ∧ t.atBoundary = true ∧ t.outEn = s.outEn ∧
      t.outlog = s.outlog ++ (if s.outEn then out else []) ∧
      step { s with outEn := b, outlog := log } =
        .next { t with outEn := b, outlog := log ++ (if b then out else []) }

/-! ### Machine control: 41_machine_control.md -/

/-- R83: Halt ends the run and changes nothing else, whatever the breakpoints; it does not latch, so a RUN goes on at
the word after it, which at the end of memory is a fetch fault. -/
def Obligations.HaltEndsTheRun : Prop :=
  encode .halt = [0] ∧
  (∀ s : State, ∃ t, exec .halt s = .next t ∧ t.status = .halted ∧ t.fsm = .stopped ∧
    OnlyChanges [.status, .fsm] s t) ∧
  ∀ s : State, s.fsm = .fetchOp → s.pc.toNat < 32768 → s.mem.read s.pc.toNat = 0 →
    ∃ t, step s = .next t ∧ t.pc.toNat = s.pc.toNat + 1 ∧ t.status = .halted ∧ t.fsm = .stopped ∧
      OnlyChanges [.pc, .status, .fsm, .latches] s t ∧
      ∃ r, hostOp .run t = (.ok .nothing, r) ∧ r.fsm = .fetchOp ∧ r.pc = t.pc ∧
        (s.pc.toNat = 32767 → StepFaults .fetchOutOfRange 32768 r)

/-- R84: NoOp changes nothing; the breakpoint check follows. -/
def Obligations.NoOpChangesNothing : Prop :=
  encode .noOp = [21] ∧ ∀ s : State, ∃ t, exec .noOp s = .next t ∧ EndsNormally [] s t

/-! ### Register and stack moves: 42_register_stack.md -/

/-- R85: SetRegister. -/
def Obligations.SetRegisterWritesTheSource : Prop :=
  ∀ src : Operand,
    (∀ dst, encode (.setRegister dst src) = [1, encodeOperand dst, encodeOperand src]) ∧
    ∀ s : State, LiteralDestinationFaults (fun dst => .setRegister dst src) s ∧
      ∀ d, ∃ t, exec (.setRegister (.reg d) src) s = .next t ∧
        WritesReg d (operandValue s src) s t ∧ EndsNormally [.regs] s t

/-- R86: Push. The fault comes exactly when a finite stack is full; its FAULT_INFO is the capacity where that fits in
16 bits (log entry 8 for one that does not). -/
def Obligations.PushPutsTheSourceOnTop : Prop :=
  ∀ src : Operand, encode (.push src) = [2, encodeOperand src] ∧
    ∀ s : State,
      (s.params.stackCapacity = some s.stack.length →
        ∃ info, ExecFaults (.push src) .stackOverflow info s ∧
          (s.stack.length < 65536 → info = s.stack.length)) ∧
      (s.params.stackCapacity ≠ some s.stack.length →
        ∃ t v, exec (.push src) s = .next t ∧ t.stack = v :: s.stack ∧ v.toNat = operandValue s src ∧
          EndsNormally [.stack] s t)

/-- R87: Pop, with its three checks in order. -/
def Obligations.PopTakesTheTopEntry : Prop :=
  (∀ dst, encode (.pop dst) = [3, encodeOperand dst]) ∧
  ∀ s : State, LiteralDestinationFaults .pop s ∧
    ∀ d,
      (s.stack = [] → ExecFaults (.pop (.reg d)) .stackUnderflow 0 s) ∧
      ∀ v rest, s.stack = v :: rest →
        (32767 < v.toNat → ExecFaults (.pop (.reg d)) .valueOutOfRange v.toNat s) ∧
        (v.toNat ≤ 32767 → ∃ t, exec (.pop (.reg d)) s = .next t ∧ t.stack = rest ∧
          WritesReg d v.toNat s t ∧ EndsNormally [.regs, .stack] s t)

/-! ### Comparisons: 43_compare.md -/

/-- R88, R89: CompareEquals and CompareGreaterThan, unsigned and strict. -/
def Obligations.ComparisonsWriteOneOrZero : Prop :=
  ∀ a b : Operand,
    (∀ dst, encode (.compareEquals dst a b) = [4, encodeOperand dst, encodeOperand a, encodeOperand b] ∧
      encode (.compareGreaterThan dst a b) = [5, encodeOperand dst, encodeOperand a, encodeOperand b]) ∧
    ∀ s : State,
      LiteralDestinationFaults (fun dst => .compareEquals dst a b) s ∧
      LiteralDestinationFaults (fun dst => .compareGreaterThan dst a b) s ∧
      ∀ d,
        (∃ t, exec (.compareEquals (.reg d) a b) s = .next t ∧
          WritesReg d (if operandValue s a = operandValue s b then 1 else 0) s t ∧ EndsNormally [.regs] s t) ∧
        ∃ t, exec (.compareGreaterThan (.reg d) a b) s = .next t ∧
          WritesReg d (if operandValue s a > operandValue s b then 1 else 0) s t ∧ EndsNormally [.regs] s t

/-! ### Control flow: 44_control_flow.md -/

/-- R91, R92, R93: Jump, JumpIfTrue and JumpIfFalse; taken, `pc` is the resolved target, and not taken, nothing
changes. -/
def Obligations.JumpsWriteTheTarget : Prop :=
  ∀ c target : Operand,
    encode (.jump target) = [6, encodeOperand target] ∧
    encode (.jumpIfTrue c target) = [7, encodeOperand c, encodeOperand target] ∧
    encode (.jumpIfFalse c target) = [8, encodeOperand c, encodeOperand target] ∧
    ∀ s : State,
      (∃ t, exec (.jump target) s = .next t ∧ t.pc.toNat = operandValue s target ∧ EndsNormally [.pc] s t) ∧
      (∃ t, exec (.jumpIfTrue c target) s = .next t ∧ EndsNormally [.pc] s t ∧
        (operandValue s c ≠ 0 → t.pc.toNat = operandValue s target) ∧ (operandValue s c = 0 → t.pc = s.pc)) ∧
      ∃ t, exec (.jumpIfFalse c target) s = .next t ∧ EndsNormally [.pc] s t ∧
        (operandValue s c = 0 → t.pc.toNat = operandValue s target) ∧ (operandValue s c ≠ 0 → t.pc = s.pc)

/-- R94: FunctionCall pushes the post-fetch `pc` and jumps. -/
def Obligations.FunctionCallPushesTheReturnAddress : Prop :=
  ∀ target : Operand, encode (.functionCall target) = [17, encodeOperand target] ∧
    ∀ s : State,
      (s.params.stackCapacity = some s.stack.length →
        ∃ info, ExecFaults (.functionCall target) .stackOverflow info s ∧
          (s.stack.length < 65536 → info = s.stack.length)) ∧
      (s.params.stackCapacity ≠ some s.stack.length →
        ∃ t, exec (.functionCall target) s = .next t ∧ t.stack = s.pc :: s.stack ∧
          t.pc.toNat = operandValue s target ∧ EndsNormally [.pc, .stack] s t)

/-- R95: FunctionReturn pops into `pc`, any entry at all. A popped 32768 meets no breakpoint, and the next fetch
faults. -/
def Obligations.FunctionReturnPopsIntoPc : Prop :=
  encode .functionReturn = [18] ∧
  (∀ s : State,
    (s.stack = [] → ExecFaults .functionReturn .stackUnderflow 0 s) ∧
    ∀ v rest, s.stack = v :: rest →
      ∃ t, exec .functionReturn s = .next t ∧ t.pc = v ∧ t.stack = rest ∧ EndsNormally [.pc, .stack] s t) ∧
  ∀ (s : State) (rest : List Word16), s.fsm = .fetchOp → s.stack = 32768 :: rest →
    decode s.mem.cellAt s.pc.toNat = .instr .functionReturn 1 →
    ∃ t, step s = .next t ∧ t.pc.toNat = 32768 ∧ t.stack = rest ∧ t.fsm = .fetchOp ∧
      StepFaults .fetchOutOfRange 32768 t

/-! ### Arithmetic and logic: 45_alu.md -/

/-- R97, R98: Add and Multiply wrap modulo 32768. -/
def Obligations.AddAndMultiplyWrapModulo32768 : Prop :=
  ∀ a b : Operand,
    (∀ dst, encode (.add dst a b) = [9, encodeOperand dst, encodeOperand a, encodeOperand b] ∧
      encode (.multiply dst a b) = [10, encodeOperand dst, encodeOperand a, encodeOperand b]) ∧
    ∀ s : State,
      LiteralDestinationFaults (fun dst => .add dst a b) s ∧
      LiteralDestinationFaults (fun dst => .multiply dst a b) s ∧
      ∀ d,
        (∃ t, exec (.add (.reg d) a b) s = .next t ∧
          WritesReg d ((operandValue s a + operandValue s b) % 32768) s t ∧ EndsNormally [.regs] s t) ∧
        ∃ t, exec (.multiply (.reg d) a b) s = .next t ∧
          WritesReg d ((operandValue s a * operandValue s b) % 32768) s t ∧ EndsNormally [.regs] s t

/-- R99: Mod; a zero divisor faults with the dividend, after the destination check. -/
def Obligations.ModFaultsOnAZeroDivisor : Prop :=
  ∀ a b : Operand,
    (∀ dst, encode (.mod dst a b) = [11, encodeOperand dst, encodeOperand a, encodeOperand b]) ∧
    ∀ s : State, LiteralDestinationFaults (fun dst => .mod dst a b) s ∧
      ∀ d,
        (operandValue s b = 0 → ExecFaults (.mod (.reg d) a b) .divideByZero (operandValue s a) s) ∧
        (operandValue s b ≠ 0 → ∃ t, exec (.mod (.reg d) a b) s = .next t ∧
          WritesReg d (operandValue s a % operandValue s b) s t ∧ EndsNormally [.regs] s t)

/-- R100, R101: BitwiseAnd and BitwiseOr. -/
def Obligations.BitwiseAndOrWriteTheBitwiseResult : Prop :=
  ∀ a b : Operand,
    (∀ dst, encode (.bitwiseAnd dst a b) = [12, encodeOperand dst, encodeOperand a, encodeOperand b] ∧
      encode (.bitwiseOr dst a b) = [13, encodeOperand dst, encodeOperand a, encodeOperand b]) ∧
    ∀ s : State,
      LiteralDestinationFaults (fun dst => .bitwiseAnd dst a b) s ∧
      LiteralDestinationFaults (fun dst => .bitwiseOr dst a b) s ∧
      ∀ d,
        (∃ t, exec (.bitwiseAnd (.reg d) a b) s = .next t ∧
          WritesReg d (operandValue s a &&& operandValue s b) s t ∧ EndsNormally [.regs] s t) ∧
        ∃ t, exec (.bitwiseOr (.reg d) a b) s = .next t ∧
          WritesReg d (operandValue s a ||| operandValue s b) s t ∧ EndsNormally [.regs] s t

/-- R102: BitwiseNot is the complement within 15 bits, and its own inverse. -/
def Obligations.BitwiseNotComplementsWithin15Bits : Prop :=
  ∀ a : Operand,
    (∀ dst, encode (.bitwiseNot dst a) = [14, encodeOperand dst, encodeOperand a]) ∧
    ∀ s : State, LiteralDestinationFaults (fun dst => .bitwiseNot dst a) s ∧
      ∀ d, ∃ t, exec (.bitwiseNot (.reg d) a) s = .next t ∧
        WritesReg d (32767 - operandValue s a) s t ∧ EndsNormally [.regs] s t ∧
        ∃ u, exec (.bitwiseNot (.reg d) (.reg d)) t = .next u ∧ (u.reg d).toNat = operandValue s a

/-! ### Memory access: 46_memory_access.md and 20_memory.md -/

/-- R103: MemoryRead; a cell above 32767 faults and no register is written. -/
def Obligations.MemoryReadLoadsTheCell : Prop :=
  ∀ addr : Operand,
    (∀ dst, encode (.memoryRead dst addr) = [15, encodeOperand dst, encodeOperand addr]) ∧
    ∀ s : State, LiteralDestinationFaults (fun dst => .memoryRead dst addr) s ∧
      ∀ d,
        (32767 < (s.mem.read (operandValue s addr)).toNat →
          ExecFaults (.memoryRead (.reg d) addr) .valueOutOfRange (s.mem.read (operandValue s addr)).toNat s) ∧
        ((s.mem.read (operandValue s addr)).toNat ≤ 32767 →
          ∃ t, exec (.memoryRead (.reg d) addr) s = .next t ∧
            WritesReg d (s.mem.read (operandValue s addr)).toNat s t ∧ EndsNormally [.regs] s t)

/-- R104: MemoryWrite stores the resolved value in the cell at the resolved address, and no other cell changes. -/
def Obligations.MemoryWriteStoresTheValue : Prop :=
  ∀ addr val : Operand, encode (.memoryWrite addr val) = [16, encodeOperand addr, encodeOperand val] ∧
    ∀ s : State, ∃ t, exec (.memoryWrite addr val) s = .next t ∧
      (∀ a, resolveAddr s addr = a → WritesCell a (operandValue s val) s t) ∧
      resolveAddr s addr = operandValue s addr ∧ EndsNormally [.mem] s t

/-- The memory port, R37 and R42, which the spec derives from its other rules: a read after a write to the cell gives
all 16 bits written, and every other cell is as before. That memory keeps its canonical form is about the model's way
of holding it (log entry 1). -/
def Obligations.MemoryPortReadsTheLatestWrite : Prop :=
  ∀ (m : Memory) (a : Nat) (v : Word16),
    (m.write a v).read a = v ∧ (∀ b, b ≠ a → (m.write a v).read b = m.read b) ∧
    (m.wf → a < 32768 → (m.write a v).wf)

/-! ### Character I/O: 47_io.md -/

/-- R105, R106: PrintChar sends the whole 15-bit value to the sink when OUT_EN is 1 and drops it otherwise. -/
def Obligations.PrintCharEmitsWhenEnabled : Prop :=
  ∀ val : Operand, encode (.printChar val) = [19, encodeOperand val] ∧
    ∀ s : State, ∃ t, exec (.printChar val) s = .next t ∧ EndsNormally [.outlog] s t ∧
      (s.outEn = true → ∃ v, t.outlog = s.outlog ++ [v] ∧ v.toNat = operandValue s val) ∧
      (s.outEn = false → t.outlog = s.outlog)

/-- R107: ReadChar takes the oldest queued value; on an empty queue it starves, with `pc` back at its opcode. -/
def Obligations.ReadCharTakesTheOldestOrStarves : Prop :=
  (∀ dst, encode (.readChar dst) = [20, encodeOperand dst]) ∧
  ∀ s : State, LiteralDestinationFaults .readChar s ∧
    ∀ d,
      (s.inq = [] → ∃ t, exec (.readChar (.reg d)) s = .next t ∧ t.pc = s.opaddr ∧ t.status = .inputStarved ∧
        t.fsm = .stopped ∧ OnlyChanges [.pc, .status, .fsm] s t) ∧
      ∀ v rest, s.inq = v :: rest → ∃ t, exec (.readChar (.reg d)) s = .next t ∧ t.inq = rest ∧
        WritesReg d v.toNat s t ∧ EndsNormally [.regs, .inq] s t

/-! ### Reset and the host interface: 70_reset_and_hazards.md and 60_exceptions.md -/

/-- R134: RESET, in any state and at any time, gives every piece of state its reset value, and READ_OUTPUT starts over
(R131). The latches have no reset value in the spec and are not mentioned. -/
def Obligations.ResetGivesEveryResetValue : Prop :=
  ∀ s : State, ∃ t, hostOp .reset s = (.ok .nothing, t) ∧
    (∀ i, (t.reg i).toNat = 0) ∧ t.pc.toNat = 0 ∧ (∀ a, (t.mem.read a).toNat = 0) ∧
    t.stack = [] ∧ t.inq = [] ∧ t.bps = [] ∧ t.outEn = true ∧ t.status = .idle ∧
    t.faultCause.code = 0 ∧ t.faultAddr.toNat = 0 ∧ t.faultInfo.toNat = 0 ∧ t.fsm = .stopped ∧
    t.outlog = [] ∧ t.outRead = 0

/-- R68: RUN is accepted only in STOPPED with STATUS IDLE, HALTED, BREAKPOINT or INPUT_STARVED, and changes STATUS and
the FSM only. -/
def Obligations.RunStartsOnlyAStoppedUnfaultedCore : Prop :=
  ∀ s : State,
    (s.fsm = .stopped → s.status ∈ [.idle, .halted, .breakpoint, .inputStarved] →
      ∃ t, hostOp .run s = (.ok .nothing, t) ∧ t.status = .running ∧ t.fsm = .fetchOp ∧
        OnlyChanges [.status, .fsm] s t) ∧
    (s.status = .faulted → hostOp .run s = (.rejected, s)) ∧
    (s.fsm ≠ .stopped → hostOp .run s = (.rejected, s))

/-- R121, R122: outside STOPPED every transaction but RESET is REJECTED, and a REJECTED transaction changes nothing. -/
def Obligations.HostIsRejectedWhileRunning : Prop :=
  ∀ (s : State) (op : HostOp),
    (s.fsm ≠ .stopped → op ≠ .reset → hostOp op s = (.rejected, s)) ∧
    ((hostOp op s).1 = .rejected → (hostOp op s).2 = s)

/-- R125, 20_memory.md R40: LOAD_IMAGE places the image's little-endian words from address 0 and changes nothing else;
an odd or oversize image is REJECTED. -/
def Obligations.LoadImagePlacesLittleEndianWords : Prop :=
  ∀ (s : State) (b : List ImageByte), s.fsm = .stopped →
    (b.length % 2 = 1 ∨ 32768 < b.length / 2 → hostOp (.loadImage b) s = (.rejected, s)) ∧
    (b.length % 2 = 0 → b.length / 2 ≤ 32768 →
      ∃ t, hostOp (.loadImage b) s = (.ok .nothing, t) ∧ OnlyChanges [.mem] s t ∧
        (∀ j lo hi, b[2 * j]? = some lo → b[2 * j + 1]? = some hi →
          (t.mem.read j).toNat = lo.toNat + 256 * hi.toNat) ∧
        ∀ a, b.length / 2 ≤ a → t.mem.read a = s.mem.read a)

/-- R123, R124: what the read transactions answer; none changes the state. GET_STATUS answers with the numbers of
10_state.md R26 for STATUS and of R108 for FAULT_CAUSE (R27). -/
def Obligations.HostReadsReturnTheState : Prop :=
  ∀ s : State, s.fsm = .stopped →
    hostOp .getPc s = (.ok (.pcValue s.pc), s) ∧
    (∃ (status : BitVec 3) (cause : BitVec 4),
      hostOp .getStatus s = (.ok (.statusAndFault status cause s.faultAddr s.faultInfo), s) ∧
      (status.toNat, s.status) ∈ [(0, Status.idle), (1, .running), (2, .halted), (3, .breakpoint), (4, .inputStarved),
        (5, .faulted)] ∧
      (cause.toNat, s.faultCause) ∈ [(0, FaultCause.noFault), (1, .fetchOutOfRange), (2, .unrecognizedOpcode),
        (3, .invalidOperand), (4, .stackUnderflow), (5, .invalidDestination), (6, .divideByZero), (7, .valueOutOfRange),
        (8, .stackOverflow)]) ∧
    (∀ i : RegIdx, hostOp (.getReg i.val) s = (.ok (.regValue (s.reg i)), s)) ∧
    (∀ i, 8 ≤ i → hostOp (.getReg i) s = (.rejected, s)) ∧
    (∀ a, a < 32768 → hostOp (.getMem a) s = (.ok (.cellValue (s.mem.read a)), s)) ∧
    (∀ a, 32768 ≤ a → hostOp (.getMem a) s = (.rejected, s)) ∧
    ∃ cells, hostOp .getMemView s = (.ok (.memView cells), s) ∧ cells.length = 32768 ∧
      ∀ a w, cells[a]? = some w → w = s.mem.read a

/-- R126, R130: SET_REG and SET_MEM write the value given, within the ranges of the register and the cell. -/
def Obligations.HostWritesAreRangeChecked : Prop :=
  ∀ s : State, s.fsm = .stopped →
    (∀ (i : RegIdx) (v : Nat), v ≤ 32767 → ∃ t, hostOp (.setReg i.val v) s = (.ok .nothing, t) ∧
      WritesReg i v s t ∧ OnlyChanges [.regs] s t) ∧
    (∀ i v, 8 ≤ i ∨ 32767 < v → hostOp (.setReg i v) s = (.rejected, s)) ∧
    (∀ a v, a ≤ 32767 → v ≤ 65535 → ∃ t, hostOp (.setMem a v) s = (.ok .nothing, t) ∧
      WritesCell a v s t ∧ OnlyChanges [.mem] s t) ∧
    ∀ a v, 32767 < a ∨ 65535 < v → hostOp (.setMem a v) s = (.rejected, s)

/-- R127: ADD_BREAKPOINT adds the address to the set, with a refusal of a bad address and of a new one in a full
set. -/
def Obligations.AddBreakpointAddsToTheSet : Prop :=
  ∀ s : State, s.fsm = .stopped →
    (∀ a, 32767 < a → hostOp (.addBreakpoint a) s = (.rejected, s)) ∧
    ∀ a : Addr,
      (a ∈ s.bps → hostOp (.addBreakpoint a.toNat) s = (.ok .nothing, s)) ∧
      (a ∉ s.bps → Fits s.params.breakpointCapacity (s.bps.length + 1) →
        ∃ t, hostOp (.addBreakpoint a.toNat) s = (.ok .nothing, t) ∧ OnlyChanges [.bps] s t ∧
          ∀ b, b ∈ t.bps ↔ b = a ∨ b ∈ s.bps) ∧
      (a ∉ s.bps → ¬ Fits s.params.breakpointCapacity (s.bps.length + 1) →
        hostOp (.addBreakpoint a.toNat) s = (.rejected, s))

/-- R128: APPEND_INPUT appends all the codes in order, or none where one is above 32767 or the queue would pass its
capacity. -/
def Obligations.AppendInputIsAllOrNothing : Prop :=
  ∀ (s : State) (codes : List Nat), s.fsm = .stopped →
    ((∃ c ∈ codes, 32767 < c) ∨ ¬ Fits s.params.inputCapacity (s.inq.length + codes.length) →
      hostOp (.appendInput codes) s = (.rejected, s)) ∧
    ((∀ c ∈ codes, c ≤ 32767) → Fits s.params.inputCapacity (s.inq.length + codes.length) →
      ∃ t, hostOp (.appendInput codes) s = (.ok .nothing, t) ∧ OnlyChanges [.inq] s t ∧
        t.inq.map BitVec.toNat = s.inq.map BitVec.toNat ++ codes)

/-- R129, R131: SET_OUTPUT writes OUT_EN; READ_OUTPUT returns, in order, what was emitted and not yet read, so a
second one returns nothing. `outRead` counts what was read, on the host's side of the interface. -/
def Obligations.OutputSwitchAndOutputRead : Prop :=
  ∀ s : State, s.fsm = .stopped →
    (∀ b : Bool, ∃ t, hostOp (.setOutput b.toNat) s = (.ok .nothing, t) ∧ t.outEn = b ∧ OnlyChanges [.outEn] s t) ∧
    (∀ b, 2 ≤ b → hostOp (.setOutput b) s = (.rejected, s)) ∧
    ∃ t out, hostOp .readOutput s = (.ok (.output out), t) ∧ OnlyChanges [.outRead] s t ∧
      (s.outRead ≤ s.outlog.length → s.outlog = s.outlog.take s.outRead ++ out ∧ t.outRead = s.outRead + out.length) ∧
      (hostOp .readOutput t).1 = .ok (.output [])

/-! ### Whole runs -/

/-- After RESET and no image, each RUN executes the Halt at the next address (70_reset_and_hazards.md R135, which the
spec derives): the RUN number `n` ends HALTED with `pc` at `n`, for every address of memory. -/
def Obligations.EmptyMemoryHaltsAtEachRun : Prop :=
  ∀ (s : State) (n : Nat), 1 ≤ n → n ≤ 32768 →
    ∃ t, runsOfOneStep n (hostOp .reset s).2 = .next t ∧ t.status = .halted ∧ t.fsm = .stopped ∧ t.pc.toNat = n

/-- R81, R91: a jump to itself with no breakpoint there never ends: after any number of steps the run is still going,
at the same instruction. -/
def Obligations.SelfJumpNeverEnds : Prop :=
  ∀ (s : State) (v : Word15), s.fsm = .fetchOp → s.status = .running → v.toNat = s.pc.toNat →
    decode s.mem.cellAt s.pc.toNat = .instr (.jump (.lit v)) 2 → ¬ AtBreakpoint s →
    ∀ n, ∃ t, StepsTo n s t ∧ t.fsm = .fetchOp ∧ OnlyChanges [.latches] s t

/-- R90: a FunctionCall and then at once a FunctionReturn leave `pc` at the word after the call, and the stack as it
was. -/
def Obligations.CallThenReturnIsARoundTrip : Prop :=
  ∀ (s : State) (target : Operand), s.fsm = .fetchOp → s.bps = [] →
    s.params.stackCapacity ≠ some s.stack.length →
    decode s.mem.cellAt s.pc.toNat = .instr (.functionCall target) 2 →
    decode s.mem.cellAt (operandValue s target) = .instr .functionReturn 1 →
    ∃ t, StepsTo 2 s t ∧ t.pc = s.pc + 2 ∧ t.stack = s.stack ∧ t.fsm = .fetchOp ∧
      OnlyChanges [.pc, .latches] s t

/-- R78: a starved ReadChar runs again. A RUN on the still empty queue ends at once with no change; after
APPEND_INPUT, RUN completes that same instruction. -/
def Obligations.StarvedReadResumes : Prop :=
  ∀ (s : State) (d : RegIdx), s.Inv → s.status = .inputStarved → s.inq = [] →
    decode s.mem.cellAt s.pc.toNat = .instr (.readChar (.reg d)) 2 →
    (∃ t, runFor 1 s = .next t ∧ OnlyChanges [.latches] s t) ∧
    ∀ c, c ≤ 32767 → Fits s.params.inputCapacity 1 →
      ∃ a t, hostOp (.appendInput [c]) s = (.ok .nothing, a) ∧ runFor 1 a = .next t ∧
        t.inq = [] ∧ WritesReg d c s t ∧ t.pc = s.pc + 2 ∧
        OnlyChanges [.regs, .pc, .status, .fsm, .latches] s t

/-- 20_memory.md R46, which the spec derives: after a step on a MemoryWrite, wherever its words and the cell it writes
lie, a fetch sees that cell with the value written and every other cell as before; the instruction used the words that
stood there before. No other step changes a cell that a fetch sees. Operands are resolved in the state before. -/
def Obligations.FetchSeesAMemoryWriteAtOnce : Prop :=
  (∀ (s : State) (addr val : Operand), s.fsm = .fetchOp →
    decode s.mem.cellAt s.pc.toNat = .instr (.memoryWrite addr val) 3 →
    ∃ t, step s = .next t ∧ t.pc = s.pc + 3 ∧
      ∀ a, resolveAddr s addr = a →
        (∃ w, t.mem.cellAt a = some w ∧ w.toNat = operandValue s val) ∧
        ∀ b, b ≠ a → t.mem.cellAt b = s.mem.cellAt b) ∧
  ∀ (s t : State) (a : Nat), s.fsm = .fetchOp → step s = .next t → t.mem.cellAt a ≠ s.mem.cellAt a →
    ∃ addr val, decode s.mem.cellAt s.pc.toNat = .instr (.memoryWrite addr val) 3 ∧ resolveAddr s addr = a

/-- STOPPED keeps all state, whatever STATUS is, and only RUN leaves it: 60_exceptions.md R120, which the spec derives.
CORE does not move however many steps it is given, and of the host's transactions only RUN starts it; all but RUN and
RESET leave STATUS and the fault record (R26, R27). -/
def Obligations.StoppedIsLeftOnlyByTheHost : Prop :=
  ∀ s : State, s.fsm = .stopped →
    step s = .next s ∧ fsmStep s = .next s ∧ (∀ n, StepsTo n s s) ∧
    ∀ op, op ≠ .run → (hostOp op s).2.fsm = .stopped ∧
      (op ≠ .reset → Part.Same s (hostOp op s).2 .status ∧ Part.Same s (hostOp op s).2 .faultRecord)
end

