-- ==== Sys2Proof/Laws/Decode.lean ====
section
/-! SUPPORT. What the decoding and encoding tables say, once: operand words, the opcode map, and one inversion lemma
for the decode of an operand. -/

namespace Sys2Proof

@[simp] theorem cellOfWord_toNat (v : Word15) : (cellOfWord v).toNat = v.toNat := by
  have := v.isLt
  simp only [cellOfWord, BitVec.toNat_setWidth]
  omega

theorem wordOfCell_toNat (w : Word16) : (wordOfCell w).toNat = w.toNat % 32768 := by
  simp [wordOfCell]

theorem wordOfCell_toNat_of_le {w : Word16} (h : w.toNat ≤ 32767) : (wordOfCell w).toNat = w.toNat := by
  rw [wordOfCell_toNat]; omega

@[simp] theorem wordOfCell_cellOfWord (v : Word15) : wordOfCell (cellOfWord v) = v := by
  apply BitVec.eq_of_toNat_eq
  have := v.isLt
  rw [wordOfCell_toNat, cellOfWord_toNat]
  omega

theorem cellOfWord_wordOfCell {w : Word16} (h : w.toNat ≤ 32767) : cellOfWord (wordOfCell w) = w := by
  apply BitVec.eq_of_toNat_eq
  rw [cellOfWord_toNat, wordOfCell_toNat_of_le h]

/-! ### Operand words: 30_encoding.md R56 -/

theorem decodeOperand_literal {u : Word16} (h : u.toNat < 32768) : decodeOperand u = some (.lit (wordOfCell u)) := by
  rw [decodeOperand, if_pos h]

theorem decodeOperand_register {u : Word16} (h₁ : 32768 ≤ u.toNat) (h₂ : u.toNat - 32768 < 8) :
    decodeOperand u = some (.reg ⟨u.toNat - 32768, h₂⟩) := by
  rw [decodeOperand, if_neg (Nat.not_lt.mpr h₁), dif_pos h₂]

theorem decodeOperand_eq_none_iff (u : Word16) : decodeOperand u = none ↔ 32776 ≤ u.toNat := by
  constructor
  · intro h
    by_contra hlt
    by_cases h₁ : u.toNat < 32768
    · rw [decodeOperand_literal h₁] at h
      cases h
    · rw [decodeOperand_register (by omega) (by omega)] at h
      cases h
  · intro h
    have h₁ : ¬ u.toNat < regRefBase := by simp only [regRefBase]; omega
    have h₂ : ¬ u.toNat - regRefBase < 8 := by simp only [regRefBase]; omega
    rw [decodeOperand, if_neg h₁, dif_neg h₂]

/-- The operand word of an operand decodes to it. -/
@[simp] theorem decodeOperand_encodeOperand (x : Operand) : decodeOperand (encodeOperand x) = some x := by
  cases x with
  | lit v =>
    have := v.isLt
    rw [encodeOperand, decodeOperand_literal (by rw [cellOfWord_toNat]; omega), wordOfCell_cellOfWord]
  | reg i => revert i; decide

/-- A word that decodes to an operand is that operand's word. -/
theorem encodeOperand_of_decodeOperand {u : Word16} {x : Operand} (h : decodeOperand u = some x) :
    encodeOperand x = u := by
  by_cases h₁ : u.toNat < 32768
  · rw [decodeOperand_literal h₁] at h
    cases h
    exact cellOfWord_wordOfCell (by omega)
  · by_cases h₂ : u.toNat - 32768 < 8
    · rw [decodeOperand_register (by omega) h₂] at h
      cases h
      apply BitVec.eq_of_toNat_eq
      simp only [encodeOperand, BitVec.toNat_ofNat, regRefBase]
      omega
    · have : decodeOperand u = none := (decodeOperand_eq_none_iff u).mpr (by omega)
      rw [this] at h
      cases h

/-! ### The opcode map: R54 -/

/-- What a row of the opcode map says: its instruction has that opcode word, and its operands in memory order. -/
theorem opcodeFormat_build {w : Word16} {f : Format} (h : opcodeFormat w = some f) (x y z : Operand) :
    (f.build x y z).opcode = w ∧ (f.build x y z).operands = [x, y, z].take f.arity := by
  unfold opcodeFormat at h
  split at h <;> first
    | (cases h; done)
    | (rename_i hw; cases h; exact ⟨BitVec.eq_of_toNat_eq (by rw [hw]; rfl), rfl⟩)

/-- A word selects an instruction exactly when it is at most 21 (R61). -/
theorem opcodeFormat_eq_none_iff (w : Word16) : opcodeFormat w = none ↔ 22 ≤ w.toNat := by
  constructor
  · intro h
    by_contra hlt
    have hw : w = BitVec.ofNat 16 w.toNat := by simp
    rw [hw] at h
    have hlt' : w.toNat < 22 := by omega
    generalize w.toNat = n at h hlt'
    interval_cases n <;> cases h
  · intro h
    unfold opcodeFormat
    split <;> first | omega | rfl

/-- Every instruction is the one its opcode word's row makes of its operands. -/
theorem opcodeFormat_opcode (i : Instr) :
    ∃ f x y z, opcodeFormat i.opcode = some f ∧ f.build x y z = i ∧ i.operands = [x, y, z].take f.arity := by
  cases i with
  | halt => exact ⟨_, .lit 0, .lit 0, .lit 0, rfl, rfl, rfl⟩
  | setRegister a b => exact ⟨_, a, b, .lit 0, rfl, rfl, rfl⟩
  | push a => exact ⟨_, a, .lit 0, .lit 0, rfl, rfl, rfl⟩
  | pop a => exact ⟨_, a, .lit 0, .lit 0, rfl, rfl, rfl⟩
  | compareEquals a b c => exact ⟨_, a, b, c, rfl, rfl, rfl⟩
  | compareGreaterThan a b c => exact ⟨_, a, b, c, rfl, rfl, rfl⟩
  | jump a => exact ⟨_, a, .lit 0, .lit 0, rfl, rfl, rfl⟩
  | jumpIfTrue a b => exact ⟨_, a, b, .lit 0, rfl, rfl, rfl⟩
  | jumpIfFalse a b => exact ⟨_, a, b, .lit 0, rfl, rfl, rfl⟩
  | add a b c => exact ⟨_, a, b, c, rfl, rfl, rfl⟩
  | multiply a b c => exact ⟨_, a, b, c, rfl, rfl, rfl⟩
  | mod a b c => exact ⟨_, a, b, c, rfl, rfl, rfl⟩
  | bitwiseAnd a b c => exact ⟨_, a, b, c, rfl, rfl, rfl⟩
  | bitwiseOr a b c => exact ⟨_, a, b, c, rfl, rfl, rfl⟩
  | bitwiseNot a b => exact ⟨_, a, b, .lit 0, rfl, rfl, rfl⟩
  | memoryRead a b => exact ⟨_, a, b, .lit 0, rfl, rfl, rfl⟩
  | memoryWrite a b => exact ⟨_, a, b, .lit 0, rfl, rfl, rfl⟩
  | functionCall a => exact ⟨_, a, .lit 0, .lit 0, rfl, rfl, rfl⟩
  | functionReturn => exact ⟨_, .lit 0, .lit 0, .lit 0, rfl, rfl, rfl⟩
  | printChar a => exact ⟨_, a, .lit 0, .lit 0, rfl, rfl, rfl⟩
  | readChar a => exact ⟨_, a, .lit 0, .lit 0, rfl, rfl, rfl⟩
  | noOp => exact ⟨_, .lit 0, .lit 0, .lit 0, rfl, rfl, rfl⟩

@[simp] theorem Format.arity_le (f : Format) : f.arity ≤ 3 := by
  cases f <;> simp [Format.arity]

/-! ### Reading one operand -/

/-- The three ways the read of an operand goes. -/
theorem withOperand_cases (cellAt : Nat → Option Word16) (p : Nat) (go : Operand → Decoded) :
    (cellAt p = none ∧ withOperand cellAt p go = .fetchFault p) ∨
    (∃ u, cellAt p = some u ∧ 32776 ≤ u.toNat ∧ withOperand cellAt p go = .invalidOperand u p) ∨
    ∃ u x, cellAt p = some u ∧ u.toNat ≤ 32775 ∧ encodeOperand x = u ∧ decodeOperand u = some x ∧
      withOperand cellAt p go = go x := by
  unfold withOperand
  cases hc : cellAt p with
  | none => simp
  | some u =>
    cases hd : decodeOperand u with
    | none => simp [(decodeOperand_eq_none_iff u).mp hd, hd]
    | some x =>
      have hle : u.toNat ≤ 32775 := by
        by_contra h
        rw [(decodeOperand_eq_none_iff u).mpr (by omega)] at hd
        cases hd
      exact .inr (.inr ⟨u, x, rfl, hle, encodeOperand_of_decodeOperand hd, hd, by simp [hd]⟩)

/-- An operand word in place is read as its operand. -/
theorem withOperand_encoded {cellAt : Nat → Option Word16} {p : Nat} {x : Operand}
    (h : cellAt p = some (encodeOperand x)) (go : Operand → Decoded) : withOperand cellAt p go = go x := by
  simp [withOperand, h]

end Sys2Proof
end

