-- ==== Sys2Proof/Laws/State.lean ====
section
/-! SUPPORT. One small lemma per field of State and per update, so that no later proof unfolds a record update. -/

namespace Sys2Proof.Machine

/-! ### Registers -/

theorem State.reg_setReg (s : State) (d j : RegIdx) (v : Word15) :
    (s.setReg d v).reg j = if j = d then v else s.reg j := by
  simp [State.reg, State.setReg, Vector.getElem_set, Fin.ext_iff, eq_comm]

@[simp] theorem State.reg_setReg_same (s : State) (d : RegIdx) (v : Word15) : (s.setReg d v).reg d = v := by
  simp [State.reg_setReg]

theorem State.reg_setReg_other (s : State) {d j : RegIdx} (v : Word15) (h : j ≠ d) :
    (s.setReg d v).reg j = s.reg j := by
  simp [State.reg_setReg, h]

@[simp] theorem State.setReg_pc (s : State) (d : RegIdx) (v : Word15) : (s.setReg d v).pc = s.pc := rfl
@[simp] theorem State.setReg_mem (s : State) (d : RegIdx) (v : Word15) : (s.setReg d v).mem = s.mem := rfl
@[simp] theorem State.setReg_stack (s : State) (d : RegIdx) (v : Word15) : (s.setReg d v).stack = s.stack := rfl
@[simp] theorem State.setReg_inq (s : State) (d : RegIdx) (v : Word15) : (s.setReg d v).inq = s.inq := rfl
@[simp] theorem State.setReg_bps (s : State) (d : RegIdx) (v : Word15) : (s.setReg d v).bps = s.bps := rfl
@[simp] theorem State.setReg_outEn (s : State) (d : RegIdx) (v : Word15) : (s.setReg d v).outEn = s.outEn := rfl
@[simp] theorem State.setReg_status (s : State) (d : RegIdx) (v : Word15) : (s.setReg d v).status = s.status := rfl
@[simp] theorem State.setReg_faultCause (s : State) (d : RegIdx) (v : Word15) :
    (s.setReg d v).faultCause = s.faultCause := rfl
@[simp] theorem State.setReg_faultAddr (s : State) (d : RegIdx) (v : Word15) :
    (s.setReg d v).faultAddr = s.faultAddr := rfl
@[simp] theorem State.setReg_faultInfo (s : State) (d : RegIdx) (v : Word15) :
    (s.setReg d v).faultInfo = s.faultInfo := rfl
@[simp] theorem State.setReg_fsm (s : State) (d : RegIdx) (v : Word15) : (s.setReg d v).fsm = s.fsm := rfl
@[simp] theorem State.setReg_opaddr (s : State) (d : RegIdx) (v : Word15) : (s.setReg d v).opaddr = s.opaddr := rfl
@[simp] theorem State.setReg_opc (s : State) (d : RegIdx) (v : Word15) : (s.setReg d v).opc = s.opc := rfl
@[simp] theorem State.setReg_opnd (s : State) (d : RegIdx) (v : Word15) : (s.setReg d v).opnd = s.opnd := rfl
@[simp] theorem State.setReg_k (s : State) (d : RegIdx) (v : Word15) : (s.setReg d v).k = s.k := rfl
@[simp] theorem State.setReg_outlog (s : State) (d : RegIdx) (v : Word15) : (s.setReg d v).outlog = s.outlog := rfl
@[simp] theorem State.setReg_outRead (s : State) (d : RegIdx) (v : Word15) :
    (s.setReg d v).outRead = s.outRead := rfl
@[simp] theorem State.setReg_params (s : State) (d : RegIdx) (v : Word15) : (s.setReg d v).params = s.params := rfl

/-- Only the register file decides what a register reads as. -/
theorem State.reg_of_regs_eq {s t : State} (h : t.regs = s.regs) (i : RegIdx) : t.reg i = s.reg i := by
  simp [State.reg, h]

/-! ### Taking a fault: 60_exceptions.md R112, field by field -/

@[simp] theorem raiseFault_regs (c : FaultCause) (n : Word16) (s : State) : (raiseFault c n s).regs = s.regs := rfl
@[simp] theorem raiseFault_reg (c : FaultCause) (n : Word16) (s : State) (i : RegIdx) :
    (raiseFault c n s).reg i = s.reg i := rfl
@[simp] theorem raiseFault_pc (c : FaultCause) (n : Word16) (s : State) : (raiseFault c n s).pc = s.opaddr := rfl
@[simp] theorem raiseFault_mem (c : FaultCause) (n : Word16) (s : State) : (raiseFault c n s).mem = s.mem := rfl
@[simp] theorem raiseFault_stack (c : FaultCause) (n : Word16) (s : State) : (raiseFault c n s).stack = s.stack := rfl
@[simp] theorem raiseFault_inq (c : FaultCause) (n : Word16) (s : State) : (raiseFault c n s).inq = s.inq := rfl
@[simp] theorem raiseFault_bps (c : FaultCause) (n : Word16) (s : State) : (raiseFault c n s).bps = s.bps := rfl
@[simp] theorem raiseFault_outEn (c : FaultCause) (n : Word16) (s : State) : (raiseFault c n s).outEn = s.outEn := rfl
@[simp] theorem raiseFault_status (c : FaultCause) (n : Word16) (s : State) :
    (raiseFault c n s).status = .faulted := rfl
@[simp] theorem raiseFault_faultCause (c : FaultCause) (n : Word16) (s : State) :
    (raiseFault c n s).faultCause = c := rfl
@[simp] theorem raiseFault_faultAddr (c : FaultCause) (n : Word16) (s : State) :
    (raiseFault c n s).faultAddr = s.opaddr := rfl
@[simp] theorem raiseFault_faultInfo (c : FaultCause) (n : Word16) (s : State) :
    (raiseFault c n s).faultInfo = n := rfl
@[simp] theorem raiseFault_fsm (c : FaultCause) (n : Word16) (s : State) : (raiseFault c n s).fsm = .stopped := rfl
@[simp] theorem raiseFault_opaddr (c : FaultCause) (n : Word16) (s : State) :
    (raiseFault c n s).opaddr = s.opaddr := rfl
@[simp] theorem raiseFault_opc (c : FaultCause) (n : Word16) (s : State) : (raiseFault c n s).opc = s.opc := rfl
@[simp] theorem raiseFault_opnd (c : FaultCause) (n : Word16) (s : State) : (raiseFault c n s).opnd = s.opnd := rfl
@[simp] theorem raiseFault_k (c : FaultCause) (n : Word16) (s : State) : (raiseFault c n s).k = s.k := rfl
@[simp] theorem raiseFault_outlog (c : FaultCause) (n : Word16) (s : State) :
    (raiseFault c n s).outlog = s.outlog := rfl
@[simp] theorem raiseFault_outRead (c : FaultCause) (n : Word16) (s : State) :
    (raiseFault c n s).outRead = s.outRead := rfl
@[simp] theorem raiseFault_params (c : FaultCause) (n : Word16) (s : State) :
    (raiseFault c n s).params = s.params := rfl

/-! ### Suspending: R75, field by field -/

@[simp] theorem suspend_regs (r : Status) (s : State) : (suspend r s).regs = s.regs := rfl
@[simp] theorem suspend_reg (r : Status) (s : State) (i : RegIdx) : (suspend r s).reg i = s.reg i := rfl
@[simp] theorem suspend_pc (r : Status) (s : State) : (suspend r s).pc = s.pc := rfl
@[simp] theorem suspend_mem (r : Status) (s : State) : (suspend r s).mem = s.mem := rfl
@[simp] theorem suspend_stack (r : Status) (s : State) : (suspend r s).stack = s.stack := rfl
@[simp] theorem suspend_inq (r : Status) (s : State) : (suspend r s).inq = s.inq := rfl
@[simp] theorem suspend_bps (r : Status) (s : State) : (suspend r s).bps = s.bps := rfl
@[simp] theorem suspend_outEn (r : Status) (s : State) : (suspend r s).outEn = s.outEn := rfl
@[simp] theorem suspend_status (r : Status) (s : State) : (suspend r s).status = r := rfl
@[simp] theorem suspend_faultCause (r : Status) (s : State) : (suspend r s).faultCause = s.faultCause := rfl
@[simp] theorem suspend_faultAddr (r : Status) (s : State) : (suspend r s).faultAddr = s.faultAddr := rfl
@[simp] theorem suspend_faultInfo (r : Status) (s : State) : (suspend r s).faultInfo = s.faultInfo := rfl
@[simp] theorem suspend_fsm (r : Status) (s : State) : (suspend r s).fsm = .stopped := rfl
@[simp] theorem suspend_opaddr (r : Status) (s : State) : (suspend r s).opaddr = s.opaddr := rfl
@[simp] theorem suspend_opc (r : Status) (s : State) : (suspend r s).opc = s.opc := rfl
@[simp] theorem suspend_opnd (r : Status) (s : State) : (suspend r s).opnd = s.opnd := rfl
@[simp] theorem suspend_k (r : Status) (s : State) : (suspend r s).k = s.k := rfl
@[simp] theorem suspend_outlog (r : Status) (s : State) : (suspend r s).outlog = s.outlog := rfl
@[simp] theorem suspend_outRead (r : Status) (s : State) : (suspend r s).outRead = s.outRead := rfl
@[simp] theorem suspend_params (r : Status) (s : State) : (suspend r s).params = s.params := rfl

theorem starve_eq (s : State) : starve s = suspend .inputStarved { s with pc := s.opaddr } := rfl

/-! ### The latched instruction: what the end of decode leaves alone -/

@[simp] theorem latchInstr_reg (i : Instr) (len : Nat) (s : State) (j : RegIdx) :
    (latchInstr i len s).reg j = s.reg j := rfl
@[simp] theorem latchInstr_regs (i : Instr) (len : Nat) (s : State) : (latchInstr i len s).regs = s.regs := rfl
@[simp] theorem latchInstr_mem (i : Instr) (len : Nat) (s : State) : (latchInstr i len s).mem = s.mem := rfl
@[simp] theorem latchInstr_stack (i : Instr) (len : Nat) (s : State) : (latchInstr i len s).stack = s.stack := rfl
@[simp] theorem latchInstr_inq (i : Instr) (len : Nat) (s : State) : (latchInstr i len s).inq = s.inq := rfl
@[simp] theorem latchInstr_bps (i : Instr) (len : Nat) (s : State) : (latchInstr i len s).bps = s.bps := rfl
@[simp] theorem latchInstr_outEn (i : Instr) (len : Nat) (s : State) : (latchInstr i len s).outEn = s.outEn := rfl
@[simp] theorem latchInstr_status (i : Instr) (len : Nat) (s : State) :
    (latchInstr i len s).status = s.status := rfl
@[simp] theorem latchInstr_faultCause (i : Instr) (len : Nat) (s : State) :
    (latchInstr i len s).faultCause = s.faultCause := rfl
@[simp] theorem latchInstr_faultAddr (i : Instr) (len : Nat) (s : State) :
    (latchInstr i len s).faultAddr = s.faultAddr := rfl
@[simp] theorem latchInstr_faultInfo (i : Instr) (len : Nat) (s : State) :
    (latchInstr i len s).faultInfo = s.faultInfo := rfl
@[simp] theorem latchInstr_outlog (i : Instr) (len : Nat) (s : State) :
    (latchInstr i len s).outlog = s.outlog := rfl
@[simp] theorem latchInstr_outRead (i : Instr) (len : Nat) (s : State) :
    (latchInstr i len s).outRead = s.outRead := rfl
@[simp] theorem latchInstr_params (i : Instr) (len : Nat) (s : State) :
    (latchInstr i len s).params = s.params := rfl
@[simp] theorem latchInstr_opaddr (i : Instr) (len : Nat) (s : State) : (latchInstr i len s).opaddr = s.pc := rfl
@[simp] theorem latchInstr_opc (i : Instr) (len : Nat) (s : State) : (latchInstr i len s).opc = i.opcode := rfl
@[simp] theorem latchInstr_pc (i : Instr) (len : Nat) (s : State) :
    (latchInstr i len s).pc = s.pc + BitVec.ofNat 16 len := rfl
@[simp] theorem latchInstr_fsm (i : Instr) (len : Nat) (s : State) : (latchInstr i len s).fsm = .execute := rfl

/-! ### Frames -/

/-- A frame over the empty list of changed parts holds of a state and itself. -/
theorem OnlyChanges.refl (ps : List Part) (s : State) : OnlyChanges ps s s := by
  intro p _
  cases p <;> simp [Part.Same]

/-- Frames compose. -/
theorem OnlyChanges.trans {ps : List Part} {s t u : State} (h₁ : OnlyChanges ps s t) (h₂ : OnlyChanges ps t u) :
    OnlyChanges ps s u := by
  intro p hp
  have a := h₁ p hp
  have b := h₂ p hp
  cases p <;> simp_all [Part.Same]

/-- A frame is weaker over more changed parts. -/
theorem OnlyChanges.mono {ps qs : List Part} {s t : State} (h : OnlyChanges ps s t) (hq : ps ⊆ qs) :
    OnlyChanges qs s t :=
  fun p hp => h p fun hp' => hp (hq hp')

end Sys2Proof.Machine
end

