-- ==== Sys2Proof/Laws/Memory.lean ====
section
/-! SUPPORT. The laws of the memory list: which entry a read finds, and that every operation keeps the canonical
form. -/

namespace Sys2Proof.Machine

@[simp] theorem Memory.read_nil (a : Nat) : Memory.read [] a = Memory.unlisted := rfl

theorem Memory.read_cons (e : Nat × Word16) (m : Memory) (a : Nat) :
    Memory.read (e :: m) a = if e.1 = a then e.2 else Memory.read m a := by
  cases e; rfl

/-- Where no entry has the address, the cell reads as an unlisted one. -/
theorem Memory.read_of_absent (m : Memory) (a : Nat) (h : ∀ e ∈ m, e.1 ≠ a) : m.read a = Memory.unlisted := by
  induction m with
  | nil => rfl
  | cons e m ih =>
    simp only [List.mem_cons, forall_eq_or_imp] at h
    rw [Memory.read_cons, if_neg h.1, ih h.2]

theorem Memory.read_erase_other (m : Memory) {a b : Nat} (h : b ≠ a) :
    Memory.read (m.filter fun e => e.1 != a) b = m.read b := by
  induction m with
  | nil => rfl
  | cons e m ih =>
    by_cases he : e.1 = a
    · have : e.1 ≠ b := by omega
      simp [he, ih, Memory.read_cons, Ne.symm h]
    · simp [he, Memory.read_cons, ih]

theorem Memory.read_erase_same (m : Memory) (a : Nat) :
    Memory.read (m.filter fun e => e.1 != a) a = Memory.unlisted :=
  Memory.read_of_absent _ _ fun e he => by simpa using (List.mem_filter.mp he).2

theorem Memory.read_place_same (m : Memory) (a : Nat) (v : Word16) (h : ∀ e ∈ m, e.1 ≠ a) :
    (Memory.place a v m).read a = v := by
  induction m with
  | nil => simp [Memory.place, Memory.read_cons]
  | cons e m ih =>
    obtain ⟨key, w⟩ := e
    simp only [List.mem_cons, forall_eq_or_imp] at h
    simp only [Memory.place]
    split
    · simp [Memory.read_cons]
    · rw [Memory.read_cons, if_neg h.1, ih h.2]

theorem Memory.read_place_other (m : Memory) {a b : Nat} (v : Word16) (h : b ≠ a) :
    (Memory.place a v m).read b = m.read b := by
  induction m with
  | nil => simp [Memory.place, Memory.read_cons, Ne.symm h]
  | cons e m ih =>
    obtain ⟨key, w⟩ := e
    simp only [Memory.place]
    split
    · simp [Memory.read_cons, Ne.symm h]
    · simp [Memory.read_cons, ih]

/-- A read after a write to the same cell. -/
@[simp] theorem Memory.read_write_same (m : Memory) (a : Nat) (v : Word16) : (m.write a v).read a = v := by
  unfold Memory.write
  simp only
  split
  · rename_i h
    rw [Memory.read_erase_same, h]
  · exact Memory.read_place_same _ _ _ fun e he => by simpa using (List.mem_filter.mp he).2

/-- A write leaves every other cell alone. -/
theorem Memory.read_write_other (m : Memory) {a b : Nat} (v : Word16) (h : b ≠ a) :
    (m.write a v).read b = m.read b := by
  unfold Memory.write
  simp only
  split
  · exact Memory.read_erase_other m h
  · rw [Memory.read_place_other _ _ h, Memory.read_erase_other m h]

theorem Memory.mem_place (m : Memory) (a : Nat) (v : Word16) (e : Nat × Word16) :
    e ∈ Memory.place a v m ↔ e = (a, v) ∨ e ∈ m := by
  induction m with
  | nil => simp [Memory.place]
  | cons f m ih =>
    obtain ⟨key, w⟩ := f
    simp only [Memory.place]
    split
    · simp
    · simp only [List.mem_cons, ih]
      tauto

theorem Memory.place_sorted (m : Memory) (a : Nat) (v : Word16) (hs : m.Pairwise fun x y => x.1 < y.1)
    (h : ∀ e ∈ m, e.1 ≠ a) : (Memory.place a v m).Pairwise fun x y => x.1 < y.1 := by
  induction m with
  | nil => simp [Memory.place]
  | cons f m ih =>
    obtain ⟨key, w⟩ := f
    rw [List.pairwise_cons] at hs
    simp only [List.mem_cons, forall_eq_or_imp] at h
    simp only [Memory.place]
    split
    · rename_i hlt
      refine List.pairwise_cons.mpr ⟨?_, List.pairwise_cons.mpr hs⟩
      intro e he
      rcases List.mem_cons.mp he with rfl | he
      · exact hlt
      · exact Nat.lt_trans hlt (hs.1 e he)
    · refine List.pairwise_cons.mpr ⟨?_, ih hs.2 h.2⟩
      intro e he
      rcases (Memory.mem_place _ _ _ _).mp he with rfl | he
      · have := h.1
        simp only at this ⊢
        omega
      · exact hs.1 e he

/-- A write keeps the canonical form. -/
theorem Memory.write_wf (m : Memory) (a : Nat) (v : Word16) (hm : m.wf) (ha : a < memWords) : (m.write a v).wf := by
  have hsub : (m.filter fun e => e.1 != a).Pairwise fun x y => x.1 < y.1 := hm.1.sublist List.filter_sublist
  unfold Memory.write
  simp only
  split
  · exact ⟨hsub, fun e he => hm.2 e (List.mem_filter.mp he).1⟩
  · rename_i hv
    refine ⟨Memory.place_sorted _ _ _ hsub fun e he => by simpa using (List.mem_filter.mp he).2, ?_⟩
    intro e he
    rcases (Memory.mem_place _ _ _ _).mp he with rfl | he
    · exact ⟨ha, hv⟩
    · exact hm.2 e (List.mem_filter.mp he).1

/-- Storing cells keeps the canonical form; a cell past the end is left out. -/
theorem Memory.storeCells_wf (ws : List Word16) : ∀ (m : Memory) (a : Nat), m.wf → (m.storeCells a ws).wf := by
  induction ws with
  | nil => intro m a h; exact h
  | cons w ws ih =>
    intro m a h
    simp only [Memory.storeCells]
    refine ih _ _ ?_
    split
    · exact Memory.write_wf m a w h ‹_›
    · exact h

/-- What a cell reads as after storing cells from `a` upward. -/
theorem Memory.read_storeCells (ws : List Word16) : ∀ (m : Memory) (a b : Nat),
    (m.storeCells a ws).read b = if a ≤ b ∧ b < a + ws.length ∧ b < memWords then ws.getD (b - a) 0 else m.read b := by
  induction ws with
  | nil =>
    intro m a b
    have : ¬(a ≤ b ∧ b < a + 0 ∧ b < memWords) := by omega
    rw [List.length_nil, if_neg this, Memory.storeCells]
  | cons w ws ih =>
    intro m a b
    simp only [Memory.storeCells, ih, List.length_cons]
    by_cases hab : b = a
    · subst hab
      have h₁ : ¬(b + 1 ≤ b ∧ b < b + 1 + ws.length ∧ b < memWords) := by omega
      rw [if_neg h₁]
      by_cases hb : b < memWords
      · rw [if_pos hb, Memory.read_write_same, if_pos (by omega)]
        simp
      · rw [if_neg hb, if_neg (by omega)]
    · have hread : (if a < memWords then m.write a w else m).read b = m.read b := by
        split
        · exact Memory.read_write_other m w hab
        · rfl
      rw [hread]
      by_cases hin : a ≤ b ∧ b < a + (ws.length + 1) ∧ b < memWords
      · have h₁ : a + 1 ≤ b ∧ b < a + 1 + ws.length ∧ b < memWords := by omega
        rw [if_pos hin, if_pos h₁]
        obtain ⟨k, hk⟩ : ∃ k, b - a = k + 1 := ⟨b - a - 1, by omega⟩
        have hk' : b - (a + 1) = k := by omega
        rw [hk, hk', List.getD_cons_succ]
      · have h₁ : ¬(a + 1 ≤ b ∧ b < a + 1 + ws.length ∧ b < memWords) := by omega
        rw [if_neg hin, if_neg h₁]

/-- Canonical memories that read the same are the same list. -/
theorem Memory.ext_of_read {m n : Memory} (hm : m.wf) (hn : n.wf) (h : ∀ a, m.read a = n.read a) : m = n := by
  induction m generalizing n with
  | nil =>
    cases n with
    | nil => rfl
    | cons f n =>
      have := h f.1
      rw [Memory.read_cons, if_pos rfl] at this
      exact absurd this.symm (hn.2 f (by simp)).2
  | cons e m ih =>
    have hm' : Memory.wf m := ⟨(List.pairwise_cons.mp hm.1).2, fun x hx => hm.2 x (by simp [hx])⟩
    cases n with
    | nil =>
      have := h e.1
      rw [Memory.read_cons, if_pos rfl] at this
      exact absurd this (hm.2 e (by simp)).2
    | cons f n =>
      have hn' : Memory.wf n := ⟨(List.pairwise_cons.mp hn.1).2, fun x hx => hn.2 x (by simp [hx])⟩
      have he := h e.1
      have hf := h f.1
      rw [Memory.read_cons, Memory.read_cons, if_pos rfl] at he
      rw [Memory.read_cons, Memory.read_cons, if_pos rfl] at hf
      have hlow : ∀ x ∈ m, e.1 < x.1 := fun x hx => (List.pairwise_cons.mp hm.1).1 x hx
      have hlow' : ∀ x ∈ n, f.1 < x.1 := fun x hx => (List.pairwise_cons.mp hn.1).1 x hx
      have hkey : f.1 = e.1 := by
        by_contra hne
        rcases Nat.lt_or_gt_of_ne hne with hlt | hgt
        · rw [if_neg (by omega), Memory.read_of_absent m f.1 fun x hx => by have := hlow x hx; omega] at hf
          exact (hn.2 f (by simp)).2 hf.symm
        · rw [if_neg (by omega), Memory.read_of_absent n e.1 fun x hx => by have := hlow' x hx; omega] at he
          exact (hm.2 e (by simp)).2 he
      rw [if_pos hkey] at he
      have hef : e = f := Prod.ext hkey.symm he
      subst hef
      congr 1
      refine ih hm' hn' fun a => ?_
      have ha := h a
      rw [Memory.read_cons, Memory.read_cons] at ha
      by_cases hea : e.1 = a
      · rw [Memory.read_of_absent m a fun x hx => by have := hlow x hx; omega,
          Memory.read_of_absent n a fun x hx => by have := hlow' x hx; omega]
      · rwa [if_neg hea, if_neg hea] at ha

/-- The cell at an address inside the space, for a fetch. -/
theorem Memory.cellAt_of_lt (m : Memory) {p : Nat} (h : p < memWords) : m.cellAt p = some (m.read p) := by
  simp [Memory.cellAt, h]

theorem Memory.cellAt_of_ge (m : Memory) {p : Nat} (h : memWords ≤ p) : m.cellAt p = none := by
  simp [Memory.cellAt, Nat.not_lt.mpr h]

/-- Reset memory is canonical and every cell of it is 0 (70_reset_and_hazards.md R134). -/
theorem reset_memory_wf : State.reset.mem.wf := by
  exact ⟨List.Pairwise.nil, fun e he => absurd he (by simp [State.reset])⟩

end Sys2Proof.Machine
end

