-- ==== Sys2Proof/Laws/Ops.lean ====
section
/-! SUPPORT. One lemma for each shared operation: what it answers in each of its cases, and what its result is as a
number. -/

namespace Sys2Proof.Machine

/-! ### Operands -/

/-- `resolve` is the value the spec gives an operand (30_encoding.md R59). -/
@[simp] theorem resolve_toNat (s : State) (x : Operand) : (resolve s x).toNat = operandValue s x := by
  cases x <;> rfl

theorem operandValue_lt (s : State) (x : Operand) : operandValue s x < 32768 := by
  rw [← resolve_toNat]; exact (resolve s x).isLt

@[simp] theorem resolveTarget_toNat (s : State) (x : Operand) : (resolveTarget s x).toNat = operandValue s x := by
  simp [resolveTarget]

@[simp] theorem resolveAddr_eq (s : State) (x : Operand) : resolveAddr s x = operandValue s x := by
  simp [resolveAddr]

theorem resolve_eq_zero_iff (s : State) (x : Operand) : resolve s x = 0 ↔ operandValue s x = 0 := by
  rw [← resolve_toNat]
  constructor
  · intro h; rw [h]; rfl
  · intro h; exact BitVec.eq_of_toNat_eq (by rw [h]; rfl)

@[simp] theorem withDestination_lit (v : Word15) (s : State) (go : RegIdx → Result) :
    withDestination (.lit v) s go = finishFault .invalidDestination (cellOfWord v) s := rfl

@[simp] theorem withDestination_reg (d : RegIdx) (s : State) (go : RegIdx → Result) :
    withDestination (.reg d) s go = go d := rfl

/-! ### Comparison results and the ALU, as numbers -/

theorem flagWord_toNat (b : Bool) : (flagWord b).toNat = if b then 1 else 0 := by
  cases b <;> rfl

theorem wordsEqual_iff (a b : Word15) : wordsEqual a b = true ↔ a.toNat = b.toNat := by
  simp [wordsEqual, BitVec.toNat_eq]

theorem wordGreater_iff (a b : Word15) : wordGreater a b = true ↔ b.toNat < a.toNat := by
  simp [wordGreater]

theorem wordTrue_iff (c : Word15) : wordTrue c = true ↔ c.toNat ≠ 0 := by
  simp [wordTrue, BitVec.toNat_eq]

theorem aluAdd_toNat (a b : Word15) : (aluAdd a b).toNat = (a.toNat + b.toNat) % 32768 := by
  simp [aluAdd]

theorem aluMultiply_toNat (a b : Word15) : (aluMultiply a b).toNat = (a.toNat * b.toNat) % 32768 := by
  simp [aluMultiply]

theorem aluMod_toNat (a b : Word15) : (aluMod a b).toNat = a.toNat % b.toNat := by
  have ha := a.isLt
  have hle := Nat.mod_le a.toNat b.toNat
  simp only [aluMod, BitVec.toNat_ofNat]
  exact Nat.mod_eq_of_lt (by omega)

theorem aluAnd_toNat (a b : Word15) : (aluAnd a b).toNat = a.toNat &&& b.toNat := by
  simp [aluAnd]

theorem aluOr_toNat (a b : Word15) : (aluOr a b).toNat = a.toNat ||| b.toNat := by
  simp [aluOr]

theorem aluNot_toNat (a : Word15) : (aluNot a).toNat = 32767 - a.toNat := by
  simp only [aluNot, BitVec.toNat_ofNat]
  omega

/-! ### The call stack -/

theorem overflowInfo_toNat {n : Nat} (h : n < 65536) : (overflowInfo n).toNat = n := by
  simp only [overflowInfo, if_pos h, BitVec.toNat_ofNat]
  omega

/-- A push on a full finite stack (10_state.md R22). -/
theorem withPush_full {s : State} (v : Word16) (go : State → Result)
    (h : s.params.stackCapacity = some s.stack.length) :
    withPush v s go = finishFault .stackOverflow (overflowInfo s.stack.length) s := by
  rw [withPush, if_pos h]

theorem withPush_room {s : State} (v : Word16) (go : State → Result)
    (h : s.params.stackCapacity ≠ some s.stack.length) :
    withPush v s go = go { s with stack := v :: s.stack } := by
  rw [withPush, if_neg h]

theorem withPop_empty {s : State} (go : Word16 → State → Result) (h : s.stack = []) :
    withPop s go = finishFault .stackUnderflow 0 s := by
  simp [withPop, h]

theorem withPop_cons {s : State} {v : Word16} {rest : List Word16} (go : Word16 → State → Result)
    (h : s.stack = v :: rest) : withPop s go = go v { s with stack := rest } := by
  simp [withPop, h]

/-! ### Breakpoints -/

/-- The breakpoint test is membership of `pc` in the set (40_fetch_decode_execute.md R73). -/
theorem atBreakpoint_iff (s : State) : s.atBreakpoint = true ↔ AtBreakpoint s := by
  simp [State.atBreakpoint, AtBreakpoint, BitVec.toNat_eq]

theorem mem_breakpointInsert (a b : Addr) (bs : List Addr) : b ∈ breakpointInsert a bs ↔ b = a ∨ b ∈ bs := by
  induction bs with
  | nil => simp [breakpointInsert]
  | cons c bs ih =>
    simp only [breakpointInsert]
    split
    · simp
    · split
      · rename_i _ h; subst h; simp
      · simp only [List.mem_cons, ih]; tauto

theorem breakpointInsert_sorted (a : Addr) (bs : List Addr) (h : bs.Pairwise (· < ·)) :
    (breakpointInsert a bs).Pairwise (· < ·) := by
  induction bs with
  | nil => simp [breakpointInsert]
  | cons c bs ih =>
    have hc := List.pairwise_cons.mp h
    simp only [breakpointInsert]
    split
    · rename_i hlt
      refine List.pairwise_cons.mpr ⟨?_, h⟩
      intro x hx
      rcases List.mem_cons.mp hx with rfl | hx
      · exact hlt
      · exact BitVec.lt_trans hlt (hc.1 x hx)
    · split
      · exact h
      · rename_i hnlt hne
        refine List.pairwise_cons.mpr ⟨?_, ih hc.2⟩
        intro x hx
        rcases (mem_breakpointInsert a x bs).mp hx with rfl | hx
        · have h₁ : x.toNat ≠ c.toNat := fun e => hne (BitVec.eq_of_toNat_eq e)
          have h₂ : ¬ x.toNat < c.toNat := fun e => hnlt (BitVec.lt_def.mpr e)
          exact BitVec.lt_def.mpr (by omega)
        · exact hc.1 x hx

theorem breakpointInsert_length_le (a : Addr) (bs : List Addr) :
    (breakpointInsert a bs).length ≤ bs.length + 1 := by
  induction bs with
  | nil => simp [breakpointInsert]
  | cons c bs ih =>
    simp only [breakpointInsert]
    split
    · simp
    · split
      · simp
      · simp only [List.length_cons]; omega

/-- CHECK at a breakpoint and elsewhere (R73). -/
theorem fsmCheck_hit {s : State} (h : AtBreakpoint s) : fsmCheck s = suspend .breakpoint s := by
  rw [fsmCheck, if_pos ((atBreakpoint_iff s).mpr h)]

theorem fsmCheck_miss {s : State} (h : ¬ AtBreakpoint s) : fsmCheck s = { s with fsm := .fetchOp } := by
  rw [fsmCheck, if_neg (fun e => h ((atBreakpoint_iff s).mp e))]

/-! ### The host's operations -/

theorem withinCapacity_iff (capacity : Option Nat) (n : Nat) : withinCapacity capacity n = true ↔ Fits capacity n := by
  cases capacity <;> simp [withinCapacity, Fits]

theorem imageCell_toNat (lo hi : ImageByte) : (imageCell lo hi).toNat = lo.toNat + 256 * hi.toNat := by
  have h₁ := lo.isLt
  have h₂ := hi.isLt
  simp only [imageCell, BitVec.toNat_ofNat]
  omega

theorem imageCells_length : ∀ b : List ImageByte, (imageCells b).length = b.length / 2
  | [] => rfl
  | [_] => by simp [imageCells]
  | lo :: hi :: b => by
    simp only [imageCells, List.length_cons, imageCells_length b]
    omega

/-- Cell `j` of an image is made of its bytes `2j` and `2j + 1` (20_memory.md R40). -/
theorem imageCells_getElem? : ∀ (b : List ImageByte) (j : Nat) (lo hi : ImageByte),
    b[2 * j]? = some lo → b[2 * j + 1]? = some hi → (imageCells b)[j]? = some (imageCell lo hi)
  | [], j, lo, hi => by simp
  | [_], j, lo, hi => by
    intro _ h
    simp at h
  | x :: y :: b, 0, lo, hi => by
    simp [imageCells]
    rintro rfl rfl
    rfl
  | x :: y :: b, j + 1, lo, hi => by
    intro h₁ h₂
    simp only [imageCells, List.getElem?_cons_succ]
    refine imageCells_getElem? b j lo hi ?_ ?_
    · simpa [Nat.mul_add] using h₁
    · have : 2 * (j + 1) + 1 = 2 * j + 1 + 1 + 1 := by omega
      rw [this] at h₂
      simpa using h₂

end Sys2Proof.Machine
end

