-- ==== Sys2Proof/Laws/Exec.lean ====
section
/-! SUPPORT. The one inversion lemma of the execute step: every state that `exec` can answer, with what led to it. It
says everything an instruction can do, so that no later proof unfolds a meaning to learn what it changes. -/

namespace Sys2Proof.Machine

theorem execReadChar_empty {s : State} (d : RegIdx) (h : s.inq = []) :
    execReadChar (.reg d) s = .next (starve s) := by
  simp only [execReadChar, withDestination_reg, h]

theorem execReadChar_cons {s : State} {v : Word15} {rest : List Word15} (d : RegIdx) (h : s.inq = v :: rest) :
    execReadChar (.reg d) s = .next { ({ s with inq := rest } : State).setReg d v with fsm := .check } := by
  simp only [execReadChar, withDestination_reg, h]
  rfl

/-! ### The cases of the instructions whose answer depends on the state -/

theorem exec_push_full {s : State} (x : Operand) (h : s.params.stackCapacity = some s.stack.length) :
    exec (.push x) s = finishFault .stackOverflow (overflowInfo s.stack.length) s :=
  withPush_full _ _ h

theorem exec_push_room {s : State} (x : Operand) (h : s.params.stackCapacity ≠ some s.stack.length) :
    exec (.push x) s = .next { s with stack := cellOfWord (resolve s x) :: s.stack, fsm := .check } :=
  withPush_room _ _ h

theorem exec_functionCall_full {s : State} (x : Operand) (h : s.params.stackCapacity = some s.stack.length) :
    exec (.functionCall x) s = finishFault .stackOverflow (overflowInfo s.stack.length) s :=
  withPush_full s.pc (fun pushed => finishNormal { pushed with pc := resolveTarget s x }) h

theorem exec_functionCall_room {s : State} (x : Operand) (h : s.params.stackCapacity ≠ some s.stack.length) :
    exec (.functionCall x) s =
      .next { s with stack := s.pc :: s.stack, pc := resolveTarget s x, fsm := .check } :=
  withPush_room s.pc (fun pushed => finishNormal { pushed with pc := resolveTarget s x }) h

theorem exec_functionReturn_empty {s : State} (h : s.stack = []) :
    exec .functionReturn s = finishFault .stackUnderflow 0 s :=
  withPop_empty (fun v popped => finishNormal { popped with pc := v }) h

theorem exec_functionReturn_cons {s : State} {v : Word16} {rest : List Word16} (h : s.stack = v :: rest) :
    exec .functionReturn s = .next { s with stack := rest, pc := v, fsm := .check } :=
  withPop_cons (fun v popped => finishNormal { popped with pc := v }) h

theorem exec_pop_empty {s : State} (d : RegIdx) (h : s.stack = []) :
    exec (.pop (.reg d)) s = finishFault .stackUnderflow 0 s :=
  withPop_empty (fun v popped =>
    if 32767 < v.toNat then finishFault .valueOutOfRange v s else finishWrite d (wordOfCell v) popped) h

/-- Pop of a register destination on a stack that holds an entry: only the entry's width decides. -/
theorem exec_pop_top {s : State} {v : Word16} {rest : List Word16} (d : RegIdx) (h : s.stack = v :: rest) :
    exec (.pop (.reg d)) s =
      if 32767 < v.toNat then finishFault .valueOutOfRange v s
      else finishWrite d (wordOfCell v) { s with stack := rest } :=
  withPop_cons (fun v popped =>
    if 32767 < v.toNat then finishFault .valueOutOfRange v s else finishWrite d (wordOfCell v) popped) h

theorem exec_pop_wide {s : State} {v : Word16} {rest : List Word16} (d : RegIdx) (h : s.stack = v :: rest)
    (hv : 32767 < v.toNat) : exec (.pop (.reg d)) s = finishFault .valueOutOfRange v s :=
  (exec_pop_top d h).trans (if_pos hv)

theorem exec_pop_cons {s : State} {v : Word16} {rest : List Word16} (d : RegIdx) (h : s.stack = v :: rest)
    (hv : v.toNat ≤ 32767) :
    exec (.pop (.reg d)) s =
      .next { ({ s with stack := rest } : State).setReg d (wordOfCell v) with fsm := .check } :=
  (exec_pop_top d h).trans (if_neg (Nat.not_lt.mpr hv))

theorem exec_readChar_empty {s : State} (d : RegIdx) (h : s.inq = []) :
    exec (.readChar (.reg d)) s = .next (starve s) :=
  execReadChar_empty d h

theorem exec_readChar_cons {s : State} {v : Word15} {rest : List Word15} (d : RegIdx) (h : s.inq = v :: rest) :
    exec (.readChar (.reg d)) s = .next { ({ s with inq := rest } : State).setReg d v with fsm := .check } :=
  execReadChar_cons d h

theorem exec_printChar_enabled {s : State} (x : Operand) (h : s.outEn = true) :
    exec (.printChar x) s = .next { emit (resolve s x) s with fsm := .check } :=
  congrArg finishNormal (if_pos h)

theorem exec_printChar_disabled {s : State} (x : Operand) (h : s.outEn = false) :
    exec (.printChar x) s = .next { s with fsm := .check } :=
  congrArg finishNormal (if_neg (by simp [h]))

/-! ### The inversion lemma -/

/-- Every way an execute step can end. The guards say when, and the last index is the state it ends in. -/
inductive ExecCase (i : Instr) (s : State) : State → Prop where
  /-- a fault the instruction can raise -/
  | fault (cause : FaultCause) (info : Word16) (hc : cause ∈ possibleCauses i) (hn : cause ≠ .noFault) :
      ExecCase i s (raiseFault cause info s)
  /-- Halt -/
  | halt (hi : i = .halt) : ExecCase i s (suspend .halted s)
  /-- ReadChar on an empty queue -/
  | starved (d : RegIdx) (hi : i = .readChar (.reg d)) (hq : s.inq = []) : ExecCase i s (starve s)
  /-- an instruction whose whole effect is the write of its destination register -/
  | write (d : RegIdx) (v : Word15) (hd : i.destination = some (.reg d)) :
      ExecCase i s { s.setReg d v with fsm := .check }
  /-- Pop -/
  | popped (d : RegIdx) (v : Word16) (rest : List Word16) (hi : i = .pop (.reg d)) (hs : s.stack = v :: rest)
      (hv : v.toNat ≤ 32767) :
      ExecCase i s { ({ s with stack := rest } : State).setReg d (wordOfCell v) with fsm := .check }
  /-- ReadChar on a queue that holds a value -/
  | dequeued (d : RegIdx) (v : Word15) (rest : List Word15) (hi : i = .readChar (.reg d)) (hq : s.inq = v :: rest) :
      ExecCase i s { ({ s with inq := rest } : State).setReg d v with fsm := .check }
  /-- Push -/
  | pushed (x : Operand) (hi : i = .push x) (hr : s.params.stackCapacity ≠ some s.stack.length) :
      ExecCase i s { s with stack := cellOfWord (resolve s x) :: s.stack, fsm := .check }
  /-- FunctionCall -/
  | called (x : Operand) (hi : i = .functionCall x) (hr : s.params.stackCapacity ≠ some s.stack.length) :
      ExecCase i s { s with stack := s.pc :: s.stack, pc := resolveTarget s x, fsm := .check }
  /-- FunctionReturn -/
  | returned (v : Word16) (rest : List Word16) (hi : i = .functionReturn) (hs : s.stack = v :: rest) :
      ExecCase i s { s with stack := rest, pc := v, fsm := .check }
  /-- a jump that is taken -/
  | jumped (x : Operand) (hi : i = .jump x ∨ (∃ c, i = .jumpIfTrue c x) ∨ ∃ c, i = .jumpIfFalse c x) :
      ExecCase i s { s with pc := resolveTarget s x, fsm := .check }
  /-- MemoryWrite -/
  | stored (x v : Operand) (hi : i = .memoryWrite x v) :
      ExecCase i s { s with mem := s.mem.write (resolveAddr s x) (cellOfWord (resolve s v)), fsm := .check }
  /-- PrintChar with the output enabled -/
  | emitted (x : Operand) (hi : i = .printChar x) (he : s.outEn = true) :
      ExecCase i s { emit (resolve s x) s with fsm := .check }
  /-- an instruction with no effect: NoOp, a jump that is not taken, PrintChar with the output disabled -/
  | nothing : ExecCase i s { s with fsm := .check }

/-- An instruction that has only the destination check before its register write. -/
theorem execCase_write {i : Operand → Instr} {s : State} {v : Word15} (dst : Operand)
    (hd : ∀ x, (i x).destination = some x) (hc : .invalidDestination ∈ possibleCauses (i dst)) :
    ∃ t, withDestination dst s (fun d => finishWrite d v s) = .next t ∧ ExecCase (i dst) s t := by
  cases dst with
  | lit w => exact ⟨_, rfl, .fault _ _ hc nofun⟩
  | reg d => exact ⟨_, rfl, .write d v (hd _)⟩

/-- `exec` always answers a next state, and it is one of `ExecCase`. -/
theorem exec_case (i : Instr) (s : State) : ∃ t, exec i s = .next t ∧ ExecCase i s t := by
  cases i with
  | halt => exact ⟨_, rfl, .halt rfl⟩
  | setRegister dst src =>
    exact execCase_write (i := fun x => .setRegister x src) dst (fun _ => rfl) (.head _)
  | push x =>
    by_cases h : s.params.stackCapacity = some s.stack.length
    · exact ⟨_, exec_push_full x h, .fault _ _ (.head _) nofun⟩
    · exact ⟨_, exec_push_room x h, .pushed x rfl h⟩
  | pop dst =>
    cases dst with
    | lit w => exact ⟨_, rfl, .fault _ _ (.head _) nofun⟩
    | reg d =>
      cases hs : s.stack with
      | nil => exact ⟨_, exec_pop_empty d hs, .fault _ _ (.tail _ (.head _)) nofun⟩
      | cons v rest =>
        by_cases hv : 32767 < v.toNat
        · exact ⟨_, exec_pop_wide d hs hv, .fault _ _ (.tail _ (.tail _ (.head _))) nofun⟩
        · exact ⟨_, exec_pop_cons d hs (Nat.not_lt.mp hv), .popped d v rest rfl hs (Nat.not_lt.mp hv)⟩
  | compareEquals dst a b =>
    exact execCase_write (i := fun x => .compareEquals x a b) dst (fun _ => rfl) (.head _)
  | compareGreaterThan dst a b =>
    exact execCase_write (i := fun x => .compareGreaterThan x a b) dst (fun _ => rfl) (.head _)
  | jump x => exact ⟨_, rfl, .jumped x (.inl rfl)⟩
  | jumpIfTrue c x =>
    by_cases h : wordTrue (resolve s c) = true
    · exact ⟨_, if_pos h, .jumped x (.inr (.inl ⟨c, rfl⟩))⟩
    · exact ⟨_, if_neg h, .nothing⟩
  | jumpIfFalse c x =>
    by_cases h : wordTrue (resolve s c) = true
    · exact ⟨_, if_pos h, .nothing⟩
    · exact ⟨_, if_neg h, .jumped x (.inr (.inr ⟨c, rfl⟩))⟩
  | add dst a b => exact execCase_write (i := fun x => .add x a b) dst (fun _ => rfl) (.head _)
  | multiply dst a b =>
    exact execCase_write (i := fun x => .multiply x a b) dst (fun _ => rfl) (.head _)
  | mod dst a b =>
    cases dst with
    | lit w => exact ⟨_, rfl, .fault _ _ (.head _) nofun⟩
    | reg d =>
      by_cases h : resolve s b = 0
      · exact ⟨_, if_pos h, .fault _ _ (.tail _ (.head _)) nofun⟩
      · exact ⟨_, if_neg h, .write d _ rfl⟩
  | bitwiseAnd dst a b =>
    exact execCase_write (i := fun x => .bitwiseAnd x a b) dst (fun _ => rfl) (.head _)
  | bitwiseOr dst a b =>
    exact execCase_write (i := fun x => .bitwiseOr x a b) dst (fun _ => rfl) (.head _)
  | bitwiseNot dst a =>
    exact execCase_write (i := fun x => .bitwiseNot x a) dst (fun _ => rfl) (.head _)
  | memoryRead dst x =>
    cases dst with
    | lit w => exact ⟨_, rfl, .fault _ _ (.head _) nofun⟩
    | reg d =>
      by_cases h : 32767 < (s.mem.read (resolveAddr s x)).toNat
      · exact ⟨_, if_pos h, .fault _ _ (.tail _ (.head _)) nofun⟩
      · exact ⟨_, if_neg h, .write d _ rfl⟩
  | memoryWrite x v => exact ⟨_, rfl, .stored x v rfl⟩
  | functionCall x =>
    by_cases h : s.params.stackCapacity = some s.stack.length
    · exact ⟨_, exec_functionCall_full x h, .fault _ _ (.head _) nofun⟩
    · exact ⟨_, exec_functionCall_room x h, .called x rfl h⟩
  | functionReturn =>
    cases hs : s.stack with
    | nil => exact ⟨_, exec_functionReturn_empty hs, .fault _ _ (.head _) nofun⟩
    | cons v rest => exact ⟨_, exec_functionReturn_cons hs, .returned v rest rfl hs⟩
  | printChar x =>
    cases he : s.outEn with
    | true => exact ⟨_, exec_printChar_enabled x he, .emitted x rfl he⟩
    | false => exact ⟨_, exec_printChar_disabled x he, .nothing⟩
  | readChar dst =>
    cases dst with
    | lit w => exact ⟨_, rfl, .fault _ _ (.head _) nofun⟩
    | reg d =>
      cases hq : s.inq with
      | nil => exact ⟨_, exec_readChar_empty d hq, .starved d rfl hq⟩
      | cons v rest => exact ⟨_, exec_readChar_cons d hq, .dequeued d v rest rfl hq⟩
  | noOp => exact ⟨_, rfl, .nothing⟩

/-- The case of a given answer. -/
theorem exec_case_of_next {i : Instr} {s t : State} (h : exec i s = .next t) : ExecCase i s t := by
  obtain ⟨u, hu, hc⟩ := exec_case i s
  rw [hu] at h
  cases h
  exact hc

end Sys2Proof.Machine
end

