-- ==== Sys2Proof/Laws/Frames.lean ====
section
/-! SUPPORT. The frames of the ways an execute step ends, in the terms of Sys2Proof/Safety.lean. -/

namespace Sys2Proof.Machine

/-- The normal end adds the FSM to what changed. -/
theorem EndsNormally.of_onlyChanges {ps : List Part} {s t : State} (h : OnlyChanges ps s t) :
    EndsNormally ps s { t with fsm := .check } := by
  refine ⟨rfl, fun p hp => ?_⟩
  have := h p fun e => hp (List.mem_cons_of_mem _ e)
  cases p <;> simp_all [Part.Same, State.reg]

theorem onlyChanges_setReg (s : State) (d : RegIdx) (v : Word15) : OnlyChanges [.regs] s (s.setReg d v) := by
  intro p hp
  cases p <;> simp_all [Part.Same]

theorem onlyChanges_pc (s : State) (v : Word16) : OnlyChanges [.pc] s { s with pc := v } := by
  intro p hp
  cases p <;> simp_all [Part.Same, State.reg]

theorem onlyChanges_suspend (r : Status) (s : State) : OnlyChanges [.status, .fsm] s (suspend r s) := by
  intro p hp
  cases p <;> simp_all [Part.Same]

theorem onlyChanges_raiseFault (c : FaultCause) (n : Word16) (s : State) :
    OnlyChanges faultParts s (raiseFault c n s) := by
  intro p hp
  cases p <;> simp_all [Part.Same, faultParts]

theorem onlyChanges_latchInstr (i : Instr) (len : Nat) (s : State) :
    OnlyChanges [.pc, .fsm, .latches] s (latchInstr i len s) := by
  intro p hp
  cases p <;> simp_all [Part.Same]

/-- Fault entry leaves what 60_exceptions.md R112 lists. -/
theorem faultEntered_raiseFault (c : FaultCause) (n : Word16) (s : State) :
    FaultEntered c n.toNat s.opaddr (raiseFault c n s) :=
  ⟨rfl, rfl, rfl, rfl, rfl, rfl⟩

/-- An instruction that answers a fault takes it. -/
theorem ExecFaults.of_finishFault {i : Instr} {c : FaultCause} {n : Word16} {s : State} {k : Nat}
    (h : exec i s = finishFault c n s) (hk : n.toNat = k) : ExecFaults i c k s :=
  ⟨_, h, hk ▸ faultEntered_raiseFault c n s, onlyChanges_raiseFault c n s⟩

/-- A register write and the normal end. -/
theorem writesReg_setReg (s : State) (d : RegIdx) {v : Word15} {n : Nat} (h : v.toNat = n) :
    WritesReg d n s { s.setReg d v with fsm := .check } :=
  ⟨(congrArg BitVec.toNat (State.reg_setReg_same s d v)).trans h, fun _ hj => State.reg_setReg_other s v hj⟩

theorem endsNormally_setReg (s : State) (d : RegIdx) (v : Word15) :
    EndsNormally [.regs] s { s.setReg d v with fsm := .check } :=
  .of_onlyChanges (onlyChanges_setReg s d v)

/-- What follows the execute step (R76): the check after a normal end, nothing otherwise. -/
theorem afterExecute_normal {t : State} (h : t.fsm = .check) : afterExecute (.next t) = .next (fsmCheck t) := by
  simp [afterExecute, h]

theorem afterExecute_ended {t : State} (h : t.fsm ≠ .check) : afterExecute (.next t) = .next t := by
  simp [afterExecute, h]

/-- An execute step ends in CHECK with STATUS as it was, or in STOPPED with a reason. -/
theorem exec_fsm_cases {i : Instr} {s t : State} (h : exec i s = .next t) :
    (t.fsm = .check ∧ t.status = s.status) ∨
    (t.fsm = .stopped ∧ (t.status = .halted ∨ t.status = .inputStarved ∨ t.status = .faulted)) := by
  have c := exec_case_of_next h
  cases c with
  | fault => exact .inr ⟨rfl, .inr (.inr rfl)⟩
  | halt => exact .inr ⟨rfl, .inl rfl⟩
  | starved => exact .inr ⟨rfl, .inr (.inl rfl)⟩
  | _ => exact .inl ⟨rfl, rfl⟩

end Sys2Proof.Machine
end

