-- ==== Sys2Proof/Laws/Cycle.lean ====
section
/-! SUPPORT. What a step can do, said once: the inversion lemma of `step` from an instruction boundary, the FSM's
transitions case by case, and how steps compose into a run. -/

namespace Sys2Proof.Machine

/-! ### The whole step -/

theorem step_stopped {s : State} (h : s.fsm = .stopped) : step s = .next s := by
  simp [step, h]

theorem step_fetch {s : State} (h : s.fsm = .fetchOp) : step s = instructionCycle s := by
  simp [step, h]

/-- A step on an instruction is its execute step and what follows it (40_fetch_decode_execute.md R76). -/
theorem step_instr {s : State} {i : Instr} {len : Nat} (hf : s.fsm = .fetchOp)
    (hd : decode s.mem.cellAt s.pc.toNat = .instr i len) :
    step s = afterExecute (exec i (latchInstr i len s)) := by
  rw [step_fetch hf, instructionCycle, hd]

/-- Everything a step from a boundary can do in a run. -/
inductive StepCase (s : State) : State → Prop where
  /-- decoding fails (30_encoding.md R63) -/
  | decodeFault (cause : FaultCause) (info : Word16) (hc : cause ≠ .noFault) :
      StepCase s (raiseFault cause info { s with opaddr := s.pc })
  /-- the execute step halts, starves or faults: no breakpoint check -/
  | ended (i : Instr) (len : Nat) (t : State) (hd : decode s.mem.cellAt s.pc.toNat = .instr i len)
      (hx : ExecCase i (latchInstr i len s) t) (he : exec i (latchInstr i len s) = .next t) (hf : t.fsm = .stopped)
      (hr : t.status = .halted ∨ t.status = .inputStarved ∨ t.status = .faulted) : StepCase s t
  /-- the execute step ends normally: the breakpoint check follows -/
  | normal (i : Instr) (len : Nat) (t : State) (hd : decode s.mem.cellAt s.pc.toNat = .instr i len)
      (hx : ExecCase i (latchInstr i len s) t) (he : exec i (latchInstr i len s) = .next t) (hf : t.fsm = .check)
      (hr : t.status = s.status) : StepCase s (fsmCheck t)

/-- A step from a boundary in a run always answers a next state, and it is one of `StepCase`. -/
theorem step_case {s : State} (hf : s.fsm = .fetchOp) : ∃ t, step s = .next t ∧ StepCase s t := by
  rw [step_fetch hf, instructionCycle]
  cases hd : decode s.mem.cellAt s.pc.toNat with
  | fetchFault p => exact ⟨_, rfl, .decodeFault _ _ nofun⟩
  | unrecognized w len => exact ⟨_, rfl, .decodeFault _ _ nofun⟩
  | invalidOperand u p => exact ⟨_, rfl, .decodeFault _ _ nofun⟩
  | instr i len =>
    obtain ⟨t, ht, hc⟩ := exec_case i (latchInstr i len s)
    simp only [ht]
    rcases exec_fsm_cases ht with ⟨h₁, h₂⟩ | ⟨h₁, h₂⟩
    · exact ⟨_, afterExecute_normal h₁, .normal i len t hd hc ht h₁ h₂⟩
    · exact ⟨_, afterExecute_ended (by simp [h₁]), .ended i len t hd hc ht h₁ h₂⟩

/-- The case of a given answer. -/
theorem step_case_of_next {s t : State} (hf : s.fsm = .fetchOp) (h : step s = .next t) : StepCase s t := by
  obtain ⟨u, hu, hc⟩ := step_case hf
  rw [hu] at h
  cases h
  exact hc

/-- The breakpoint check changes STATUS and the FSM only (R73). -/
theorem onlyChanges_fsmCheck (s : State) : OnlyChanges [.status, .fsm] s (fsmCheck s) := by
  by_cases h : AtBreakpoint s
  · rw [fsmCheck_hit h]
    exact onlyChanges_suspend _ _
  · rw [fsmCheck_miss h]
    intro p hp
    cases p <;> simp_all [Part.Same, State.reg]

@[simp] theorem fsmCheck_mem (s : State) : (fsmCheck s).mem = s.mem := by
  unfold fsmCheck; split <;> rfl

/-- A step whose decoding fails takes the fault, and nothing else but latches changes. -/
theorem StepFaults.of_cycle {s : State} {c : FaultCause} {n : Word16} {k : Nat} (hf : s.fsm = .fetchOp)
    (h : instructionCycle s = finishFault c n { s with opaddr := s.pc }) (hk : n.toNat = k) : StepFaults c k s := by
  subst hk
  refine ⟨_, (step_fetch hf).trans h, ⟨rfl, rfl, rfl, rfl, rfl, rfl⟩, ?_⟩
  intro p hp
  cases p <;> simp_all [Part.Same, faultParts, State.reg]

/-! ### Runs -/

/-- One step and then the rest of a run. -/
theorem run_next {n : Nat} {s t : State} (h : step s = .next t) :
    Host.Core.run Sys2Proof.core (n + 1) s = Host.Core.run Sys2Proof.core n t := by
  have h' : Sys2Proof.core.step s = .next t := h
  simp only [Host.Core.run, h']

theorem StepsTo.zero (s : State) : StepsTo 0 s s := rfl

theorem StepsTo.succ {n : Nat} {s t u : State} (h : step s = .next t) (h' : StepsTo n t u) :
    StepsTo (n + 1) s u :=
  (run_next h).trans h'

/-! ### The FSM, transition by transition -/

/-- The next `pc` of a fetch inside the address space: no wrap (10_state.md R20). -/
theorem pc_succ_toNat {p : Word16} (h : p.toNat < 32768) : (p + 1).toNat = p.toNat + 1 := by
  show (p.toNat + 1) % 65536 = p.toNat + 1
  omega

/-- A fetch that finds a cell was inside the address space. -/
theorem Memory.lt_of_cellAt {m : Memory} {p : Nat} {w : Word16} (h : m.cellAt p = some w) : p < 32768 := by
  by_contra hp
  rw [Memory.cellAt_of_ge m (by simpa [memWords] using hp)] at h
  cases h

theorem fsmStep_fetchOp {s : State} (h : s.fsm = .fetchOp) : fsmStep s = .next (fsmFetchOp s) := by
  simp [fsmStep, h]

theorem fsmStep_check {s : State} (h : s.fsm = .check) : fsmStep s = .next (fsmCheck s) := by
  simp [fsmStep, h]

theorem fsmFetchOp_outOfRange {s : State} (h : s.mem.cellAt s.pc.toNat = none) :
    fsmFetchOp s = raiseFault .fetchOutOfRange s.pc { s with opaddr := s.pc } := by
  rw [fsmFetchOp, h]

theorem fsmFetchOp_unrecognized {s : State} {w : Word16} (h : s.mem.cellAt s.pc.toNat = some w)
    (ho : opcodeFormat w = none) :
    fsmFetchOp s = raiseFault .unrecognizedOpcode w { s with opaddr := s.pc, opc := w, pc := s.pc + 1 } := by
  rw [fsmFetchOp, h]
  simp only [ho]

theorem fsmFetchOp_opcode {s : State} {w : Word16} {f : Format} (h : s.mem.cellAt s.pc.toNat = some w)
    (ho : opcodeFormat w = some f) :
    fsmFetchOp s = { s with opaddr := s.pc, opc := w, pc := s.pc + 1, k := 0,
                            fsm := if f.arity = 0 then .execute else .fetchOpnd } := by
  rw [fsmFetchOp, h]
  simp only [ho]

/-- EXECUTE is the execute step of the latched instruction (R71). -/
theorem fsmStep_execute {s : State} {f : Format} (h : s.fsm = .execute) (ho : opcodeFormat s.opc = some f) :
    fsmStep s = exec (f.build s.opnd[0] s.opnd[1] s.opnd[2]) s := by
  simp [fsmStep, h, fsmExecute, ho]

/-- Everything FETCH_OPND can do while K is a latch's number (R70). -/
theorem fsmStep_fetchOpnd {s : State} {f : Format} (h : s.fsm = .fetchOpnd) (ho : opcodeFormat s.opc = some f)
    (hk : s.k.val < 3) :
    (s.mem.cellAt s.pc.toNat = none ∧ fsmStep s = .next (raiseFault .fetchOutOfRange s.pc s)) ∨
    (∃ u, s.mem.cellAt s.pc.toNat = some u ∧ decodeOperand u = none ∧
      fsmStep s = .next (raiseFault .invalidOperand u s)) ∨
    ∃ u x, s.mem.cellAt s.pc.toNat = some u ∧ decodeOperand u = some x ∧
      fsmStep s = .next { s with
        opnd := s.opnd.set s.k.val x
        pc := s.pc + 1
        k := s.k + 1
        fsm := if s.k.val + 1 = f.arity then .execute else .fetchOpnd } := by
  have h₀ : fsmStep s = fsmFetchOpnd s := by simp [fsmStep, h]
  simp only [fsmFetchOpnd, ho, dif_pos hk] at h₀
  cases hc : s.mem.cellAt s.pc.toNat with
  | none => rw [hc] at h₀; exact .inl ⟨rfl, h₀⟩
  | some u =>
    rw [hc] at h₀
    cases hx : decodeOperand u with
    | none => simp only [hx] at h₀; exact .inr (.inl ⟨u, rfl, hx, h₀⟩)
    | some x => simp only [hx] at h₀; exact .inr (.inr ⟨u, x, rfl, hx, h₀⟩)

theorem fsmToBoundary_succ {n : Nat} {s t : State} (h : fsmStep s = .next t) :
    fsmToBoundary (n + 1) s = if t.atBoundary then .next t else fsmToBoundary n t := by
  simp only [fsmToBoundary, h]

/-- From EXECUTE, the FSM reaches the boundary that the whole step ends in. -/
theorem fsmToBoundary_execute {s : State} {i : Instr} {f : Format} (hf : s.fsm = .execute)
    (ho : opcodeFormat s.opc = some f) (hb : f.build s.opnd[0] s.opnd[1] s.opnd[2] = i) (n : Nat) :
    fsmToBoundary (n + 2) s = afterExecute (exec i s) := by
  obtain ⟨t, ht, -⟩ := exec_case i s
  rw [fsmToBoundary_succ ((fsmStep_execute hf ho).trans (hb ▸ ht)), ht]
  rcases exec_fsm_cases ht with ⟨h, -⟩ | ⟨h, -⟩
  · rw [afterExecute_normal h, if_neg (by simp [State.atBoundary, h]), fsmToBoundary_succ (fsmStep_check h), if_pos]
    unfold fsmCheck; split <;> rfl
  · rw [afterExecute_ended (by simp [h]), if_pos (by simp [State.atBoundary, h])]

end Sys2Proof.Machine
end

