-- ==== Sys2Proof/Laws/HostPort.lean ====
section
/-! SUPPORT. When a host transaction is answered, and what none of them changes. -/

namespace Sys2Proof.Machine

/-- In a stopped CORE every transaction is looked at (60_exceptions.md R122). -/
theorem hostOp_stopped {s : State} (h : s.fsm = .stopped) (op : HostOp) : hostOp op s = hostOpStopped op s := by
  unfold hostOp
  split
  · rename_i e; subst e; rfl
  · rfl

theorem hostOp_running {s : State} {op : HostOp} (h : s.fsm ≠ .stopped) (ho : op ≠ .reset) :
    hostOp op s = reject s := by
  rw [hostOp, if_neg ho, if_neg h]

theorem hostOp_reset (s : State) : hostOp .reset s = accept (hostReset s) := rfl

/-- RUN in a stopped CORE that may run (40_fetch_decode_execute.md R68). -/
theorem hostOp_run {s : State} (h : s.fsm = .stopped) (ha : s.status.acceptsRun = true) :
    hostOp .run s = accept { s with status := .running, fsm := .fetchOp } := by
  rw [hostOp_stopped h]
  exact if_pos ha

/-- No transaction changes the parameters of 00_scope.md R7. -/
theorem hostOp_params (op : HostOp) (s : State) : (hostOp op s).2.params = s.params := by
  unfold hostOp
  split
  · rfl
  · split
    · cases op <;>
        simp only [hostOpStopped, accept, answer, reject, hostLoadImage, hostRun, hostGetStatus, hostGetReg, hostSetReg,
          hostGetMem, hostSetMem, hostAddBreakpoint, hostSetOutput, hostAppendInput, hostReadOutput] <;>
        (repeat' split) <;> rfl
    · rfl

end Sys2Proof.Machine
end

