-- ==== Sys2Proof/Laws/Output.lean ====
section
/-! SUPPORT. What an execute step adds to the output, and that nothing else in it depends on OUT_EN or on what was
emitted before. -/

namespace Sys2Proof.Machine

/-- `s` with another OUT_EN and another record of what was emitted. -/
abbrev State.withOutput (s : State) (b : Bool) (log : List Word15) : State := { s with outEn := b, outlog := log }

theorem resolve_withOutput (s : State) (b : Bool) (log : List Word15) (x : Operand) :
    resolve (s.withOutput b log) x = resolve s x := by
  cases x <;> rfl

theorem resolveTarget_withOutput (s : State) (b : Bool) (log : List Word15) (x : Operand) :
    resolveTarget (s.withOutput b log) x = resolveTarget s x := by
  cases x <;> rfl

/-- The breakpoint check neither reads nor changes the output (40_fetch_decode_execute.md R73). -/
theorem fsmCheck_withOutput (s : State) (b : Bool) (log : List Word15) :
    fsmCheck (s.withOutput b log) = (fsmCheck s).withOutput b log := by
  by_cases h : AtBreakpoint s
  · rw [fsmCheck_hit h, fsmCheck_hit (s := s.withOutput b log) h]; rfl
  · rw [fsmCheck_miss h, fsmCheck_miss (s := s.withOutput b log) h]

/-- The relation the output keeps: `t` and `t'` come from `s` and from `s` with `b` and `log`, and each has added the
values `out` where its OUT_EN is 1. -/
def OutputAdded (s : State) (b : Bool) (log : List Word15) (r r' : Result) : Prop :=
  ∃ t out, r = .next t ∧ t.outEn = s.outEn ∧ t.outlog = s.outlog ++ (if s.outEn then out else []) ∧
    r' = .next (t.withOutput b (log ++ (if b then out else [])))

/-- Where nothing is emitted. -/
theorem OutputAdded.nothing {s t : State} {b : Bool} {log : List Word15} {r r' : Result} (h : r = .next t)
    (he : t.outEn = s.outEn) (hl : t.outlog = s.outlog) (h' : r' = .next (t.withOutput b log)) :
    OutputAdded s b log r r' :=
  ⟨t, [], h, he, by simp [hl], by simp [h']⟩

/-- A register write behind the destination check. -/
theorem OutputAdded.of_write (s : State) (b : Bool) (log : List Word15) (dst : Operand) {v v' : Word15} (h : v' = v) :
    OutputAdded s b log (withDestination dst s fun d => finishWrite d v s)
      (withDestination dst (s.withOutput b log) fun d => finishWrite d v' (s.withOutput b log)) := by
  subst h
  cases dst <;> exact .nothing rfl rfl rfl rfl

/-- Of every execute step: only PrintChar adds to the output, and only the output depends on OUT_EN. -/
theorem exec_outputAdded (i : Instr) (s : State) (b : Bool) (log : List Word15) :
    OutputAdded s b log (exec i s) (exec i (s.withOutput b log)) := by
  cases i with
  | halt => exact .nothing rfl rfl rfl rfl
  | setRegister dst x => exact .of_write s b log dst (resolve_withOutput s b log x)
  | push x =>
    by_cases h : s.params.stackCapacity = some s.stack.length
    · exact .nothing (exec_push_full x h) rfl rfl (exec_push_full (s := s.withOutput b log) x h)
    · exact .nothing (exec_push_room x h) rfl rfl
        ((exec_push_room (s := s.withOutput b log) x h).trans (by rw [resolve_withOutput]))
  | pop dst =>
    cases dst with
    | lit v => exact .nothing rfl rfl rfl rfl
    | reg d =>
      cases hs : s.stack with
      | nil => exact .nothing (exec_pop_empty d hs) rfl rfl (exec_pop_empty (s := s.withOutput b log) d hs)
      | cons v rest =>
        by_cases hv : v.toNat ≤ 32767
        · exact .nothing (exec_pop_cons d hs hv) rfl rfl (exec_pop_cons (s := s.withOutput b log) d hs hv)
        · exact .nothing (exec_pop_wide d hs (Nat.not_le.mp hv)) rfl rfl
            (exec_pop_wide (s := s.withOutput b log) d hs (Nat.not_le.mp hv))
  | compareEquals dst x y =>
    exact .of_write s b log dst (by simp only [resolve_withOutput])
  | compareGreaterThan dst x y =>
    exact .of_write s b log dst (by simp only [resolve_withOutput])
  | jump x => exact .nothing rfl rfl rfl (by cases x <;> rfl)
  | jumpIfTrue c x =>
    by_cases h : wordTrue (resolve s c) = true
    · refine .nothing (if_pos h) rfl rfl ?_
      exact (if_pos (by rw [resolve_withOutput]; exact h)).trans (by rw [resolveTarget_withOutput]; rfl)
    · exact .nothing (if_neg h) rfl rfl (if_neg (by rw [resolve_withOutput]; exact h))
  | jumpIfFalse c x =>
    by_cases h : wordTrue (resolve s c) = true
    · exact .nothing (if_pos h) rfl rfl (if_pos (by rw [resolve_withOutput]; exact h))
    · refine .nothing (if_neg h) rfl rfl ?_
      exact (if_neg (by rw [resolve_withOutput]; exact h)).trans (by rw [resolveTarget_withOutput]; rfl)
  | add dst x y => exact .of_write s b log dst (by simp only [resolve_withOutput])
  | multiply dst x y => exact .of_write s b log dst (by simp only [resolve_withOutput])
  | mod dst x y =>
    cases dst with
    | lit v => exact .nothing rfl rfl rfl rfl
    | reg d =>
      by_cases h : resolve s y = 0
      · refine .nothing (if_pos h) rfl rfl ?_
        exact (if_pos (by rw [resolve_withOutput]; exact h)).trans (by rw [resolve_withOutput]; rfl)
      · refine .nothing (if_neg h) rfl rfl ?_
        exact (if_neg (by rw [resolve_withOutput]; exact h)).trans
          (by rw [resolve_withOutput, resolve_withOutput]; rfl)
  | bitwiseAnd dst x y => exact .of_write s b log dst (by simp only [resolve_withOutput])
  | bitwiseOr dst x y => exact .of_write s b log dst (by simp only [resolve_withOutput])
  | bitwiseNot dst x => exact .of_write s b log dst (by rw [resolve_withOutput])
  | memoryRead dst x =>
    cases dst with
    | lit v => exact .nothing rfl rfl rfl rfl
    | reg d =>
      have hx : resolveAddr (s.withOutput b log) x = resolveAddr s x := by cases x <;> rfl
      by_cases h : 32767 < (s.mem.read (resolveAddr s x)).toNat
      · refine .nothing (if_pos h) rfl rfl ?_
        exact (if_pos (by rw [hx]; exact h)).trans (by rw [hx]; rfl)
      · refine .nothing (if_neg h) rfl rfl ?_
        exact (if_neg (by rw [hx]; exact h)).trans (by rw [hx]; rfl)
  | memoryWrite x v => exact .nothing rfl rfl rfl (by cases x <;> cases v <;> rfl)
  | functionCall x =>
    by_cases h : s.params.stackCapacity = some s.stack.length
    · exact .nothing (exec_functionCall_full x h) rfl rfl (exec_functionCall_full (s := s.withOutput b log) x h)
    · exact .nothing (exec_functionCall_room x h) rfl rfl
        ((exec_functionCall_room (s := s.withOutput b log) x h).trans (by rw [resolveTarget_withOutput]))
  | functionReturn =>
    cases hs : s.stack with
    | nil =>
      exact .nothing (exec_functionReturn_empty hs) rfl rfl
        (exec_functionReturn_empty (s := s.withOutput b log) hs)
    | cons v rest =>
      exact .nothing (exec_functionReturn_cons hs) rfl rfl
        (exec_functionReturn_cons (s := s.withOutput b log) hs)
  | printChar x =>
    have hx := resolve_withOutput s b log x
    cases he : s.outEn <;> cases b
    · exact ⟨_, [resolve s x], exec_printChar_disabled x he, rfl, by simp [he], by
        rw [exec_printChar_disabled (s := s.withOutput false log) x rfl]; simp⟩
    · exact ⟨_, [resolve s x], exec_printChar_disabled x he, rfl, by simp [he], by
        rw [exec_printChar_enabled (s := s.withOutput true log) x rfl]; simp [emit, hx]⟩
    · exact ⟨_, [resolve s x], exec_printChar_enabled x he, rfl, by simp [emit, he], by
        rw [exec_printChar_disabled (s := s.withOutput false log) x rfl]; simp [emit]⟩
    · exact ⟨_, [resolve s x], exec_printChar_enabled x he, rfl, by simp [emit, he], by
        rw [exec_printChar_enabled (s := s.withOutput true log) x rfl]; simp [emit, hx]⟩
  | readChar dst =>
    cases dst with
    | lit v => exact .nothing rfl rfl rfl rfl
    | reg d =>
      cases hq : s.inq with
      | nil => exact .nothing (exec_readChar_empty d hq) rfl rfl (exec_readChar_empty (s := s.withOutput b log) d hq)
      | cons v rest =>
        exact .nothing (exec_readChar_cons d hq) rfl rfl
          (exec_readChar_cons (s := s.withOutput b log) d hq)
  | noOp => exact .nothing rfl rfl rfl rfl

end Sys2Proof.Machine
end

