-- ==== Sys2Proof/Laws/PerInstr.lean ====
section
/-! SUPPORT. Statements made per instruction, one lemma a constructor (LAWS.json names the families). -/

namespace Sys2Proof.Laws

/-- Spec 30_encoding.md R52 and R55: an instruction is one opcode word of 0..21 and one word for each operand its
opcode's format names, 1 to 4 words in all. -/
def EncodedLength.Statement (i : Instr) : Prop :=
  i.opcode.toNat ≤ 21 ∧ (encode i).length ≤ 4 ∧
    ∃ f, opcodeFormat i.opcode = some f ∧ (encode i).length = 1 + f.arity

/-- The statement from two comparisons of numerals and the row of the opcode map. -/
theorem EncodedLength.of_row {i : Instr} {f : Format} (h₁ : Nat.ble i.opcode.toNat 21 = true)
    (h₂ : Nat.ble (encode i).length 4 = true) (h₃ : opcodeFormat i.opcode = some f)
    (h₄ : (encode i).length = 1 + f.arity) : EncodedLength.Statement i :=
  ⟨Nat.le_of_ble_eq_true h₁, Nat.le_of_ble_eq_true h₂, f, h₃, h₄⟩

theorem EncodedLength.halt : EncodedLength.Statement .halt :=
  EncodedLength.of_row rfl rfl rfl rfl
theorem EncodedLength.setRegister (dst src : Operand) : EncodedLength.Statement (.setRegister dst src) :=
  EncodedLength.of_row rfl rfl rfl rfl
theorem EncodedLength.push (src : Operand) : EncodedLength.Statement (.push src) :=
  EncodedLength.of_row rfl rfl rfl rfl
theorem EncodedLength.pop (dst : Operand) : EncodedLength.Statement (.pop dst) :=
  EncodedLength.of_row rfl rfl rfl rfl
theorem EncodedLength.compareEquals (dst a b : Operand) : EncodedLength.Statement (.compareEquals dst a b) :=
  EncodedLength.of_row rfl rfl rfl rfl
theorem EncodedLength.compareGreaterThan (dst a b : Operand) : EncodedLength.Statement (.compareGreaterThan dst a b) :=
  EncodedLength.of_row rfl rfl rfl rfl
theorem EncodedLength.jump (target : Operand) : EncodedLength.Statement (.jump target) :=
  EncodedLength.of_row rfl rfl rfl rfl
theorem EncodedLength.jumpIfTrue (cond target : Operand) : EncodedLength.Statement (.jumpIfTrue cond target) :=
  EncodedLength.of_row rfl rfl rfl rfl
theorem EncodedLength.jumpIfFalse (cond target : Operand) : EncodedLength.Statement (.jumpIfFalse cond target) :=
  EncodedLength.of_row rfl rfl rfl rfl
theorem EncodedLength.add (dst a b : Operand) : EncodedLength.Statement (.add dst a b) :=
  EncodedLength.of_row rfl rfl rfl rfl
theorem EncodedLength.multiply (dst a b : Operand) : EncodedLength.Statement (.multiply dst a b) :=
  EncodedLength.of_row rfl rfl rfl rfl
theorem EncodedLength.mod (dst a b : Operand) : EncodedLength.Statement (.mod dst a b) :=
  EncodedLength.of_row rfl rfl rfl rfl
theorem EncodedLength.bitwiseAnd (dst a b : Operand) : EncodedLength.Statement (.bitwiseAnd dst a b) :=
  EncodedLength.of_row rfl rfl rfl rfl
theorem EncodedLength.bitwiseOr (dst a b : Operand) : EncodedLength.Statement (.bitwiseOr dst a b) :=
  EncodedLength.of_row rfl rfl rfl rfl
theorem EncodedLength.bitwiseNot (dst a : Operand) : EncodedLength.Statement (.bitwiseNot dst a) :=
  EncodedLength.of_row rfl rfl rfl rfl
theorem EncodedLength.memoryRead (dst addr : Operand) : EncodedLength.Statement (.memoryRead dst addr) :=
  EncodedLength.of_row rfl rfl rfl rfl
theorem EncodedLength.memoryWrite (addr val : Operand) : EncodedLength.Statement (.memoryWrite addr val) :=
  EncodedLength.of_row rfl rfl rfl rfl
theorem EncodedLength.functionCall (target : Operand) : EncodedLength.Statement (.functionCall target) :=
  EncodedLength.of_row rfl rfl rfl rfl
theorem EncodedLength.functionReturn : EncodedLength.Statement .functionReturn :=
  EncodedLength.of_row rfl rfl rfl rfl
theorem EncodedLength.printChar (val : Operand) : EncodedLength.Statement (.printChar val) :=
  EncodedLength.of_row rfl rfl rfl rfl
theorem EncodedLength.readChar (dst : Operand) : EncodedLength.Statement (.readChar dst) :=
  EncodedLength.of_row rfl rfl rfl rfl
theorem EncodedLength.noOp : EncodedLength.Statement .noOp :=
  EncodedLength.of_row rfl rfl rfl rfl

end Sys2Proof.Laws
end

