-- ==== Sys2Proof/Tests/Slice0.lean ====
section
/-! SUPPORT. The model's own tests. Expected values are those of spec/95_test_vectors.md (W, V and P numbers below) or
worked out by hand from the rule named. The theorems named `witness_…` show states and operands that meet the
hypotheses of the obligation of that name, clause by clause and at the ends of the ranges. -/

namespace Sys2Proof.Tests

open Sys2Proof Sys2Proof.Machine

/-! ### Helpers -/

/-- One look at the state a step answers. -/
def look {α : Type} (r : Result) (f : State → α) : Option α :=
  match r with
  | .next t => some (f t)
  | .fault _ => none
  | .refused _ => none

/-- A running CORE at `a` with the words from there on, otherwise as at reset. -/
def at_ (a : Word16) (ws : List Word16) : State :=
  { State.reset with mem := Memory.storeCells [] a.toNat ws, pc := a, status := .running, fsm := .fetchOp }

/-- The same at address 0. -/
def boot (ws : List Word16) : State := at_ 0 ws

/-- A state of CORE in its execute step, with a little of everything in it. -/
def busy : State :=
  { State.reset with
    pc := 12
    opaddr := 10
    mem := [(3, 7), (100, 40000), (101, 32767)]
    stack := [9, 32768]
    inq := [65, 66]
    bps := [5, 300]
    status := .running
    fsm := .execute
    params := { stackCapacity := some 3, inputCapacity := some 4, breakpointCapacity := some 2 } }

/-- The fault record and `pc`. -/
def record (t : State) : FaultCause × Word16 × Word16 × Word16 := (t.faultCause, t.faultAddr, t.faultInfo, t.pc)

/-! ### WellFormed: the check refuses a literal destination (R58), of every instruction that has one -/

theorem test_illformed_refused :
    Instr.wellFormed (.setRegister (.lit 5) (.lit 7)) = false ∧ Instr.wellFormed (.pop (.lit 4)) = false ∧
    Instr.wellFormed (.compareEquals (.lit 0) (.reg 0) (.reg 1)) = false ∧
    Instr.wellFormed (.compareGreaterThan (.lit 0) (.reg 0) (.reg 1)) = false ∧
    Instr.wellFormed (.add (.lit 1) (.lit 2) (.lit 3)) = false ∧
    Instr.wellFormed (.multiply (.lit 1) (.lit 2) (.lit 3)) = false ∧
    Instr.wellFormed (.mod (.lit 9) (.lit 7) (.lit 0)) = false ∧
    Instr.wellFormed (.bitwiseAnd (.lit 1) (.lit 2) (.lit 3)) = false ∧
    Instr.wellFormed (.bitwiseOr (.lit 1) (.lit 2) (.lit 3)) = false ∧
    Instr.wellFormed (.bitwiseNot (.lit 1) (.lit 2)) = false ∧
    Instr.wellFormed (.memoryRead (.lit 1) (.lit 2)) = false ∧ Instr.wellFormed (.readChar (.lit 9)) = false := by
  decide

theorem test_wellformed_accepted :
    Instr.wellFormed (.setRegister (.reg 5) (.lit 7)) = true ∧ Instr.wellFormed (.memoryWrite (.lit 1) (.lit 2)) = true ∧
    Instr.wellFormed (.jump (.lit 32767)) = true ∧ Instr.wellFormed .halt = true := by
  decide

/-! ### Decoding: one word sequence for every row of R54, the words from R54 and R56 (r0..r7 are 32768..32775) -/

theorem test_decode_halt : decode (cellsOf [0]) 0 = .instr .halt 1 := by decide
theorem test_decode_set : decode (cellsOf [1, 32771, 12345]) 0 = .instr (.setRegister (.reg 3) (.lit 12345)) 3 := by
  decide
theorem test_decode_push : decode (cellsOf [2, 32772]) 0 = .instr (.push (.reg 4)) 2 := by decide
theorem test_decode_pop : decode (cellsOf [3, 32768]) 0 = .instr (.pop (.reg 0)) 2 := by decide
theorem test_decode_eq :
    decode (cellsOf [4, 32769, 32768, 5]) 0 = .instr (.compareEquals (.reg 1) (.reg 0) (.lit 5)) 4 := by decide
theorem test_decode_gt :
    decode (cellsOf [5, 32770, 32770, 2]) 0 = .instr (.compareGreaterThan (.reg 2) (.reg 2) (.lit 2)) 4 := by decide
theorem test_decode_jmp : decode (cellsOf [6, 32773]) 0 = .instr (.jump (.reg 5)) 2 := by decide
theorem test_decode_jt : decode (cellsOf [7, 32768, 300]) 0 = .instr (.jumpIfTrue (.reg 0) (.lit 300)) 3 := by decide
theorem test_decode_jf : decode (cellsOf [8, 32768, 300]) 0 = .instr (.jumpIfFalse (.reg 0) (.lit 300)) 3 := by decide
theorem test_decode_add :
    decode (cellsOf [9, 32771, 32767, 2]) 0 = .instr (.add (.reg 3) (.lit 32767) (.lit 2)) 4 := by decide
theorem test_decode_mult :
    decode (cellsOf [10, 32769, 32768, 32768]) 0 = .instr (.multiply (.reg 1) (.reg 0) (.reg 0)) 4 := by decide
theorem test_decode_mod :
    decode (cellsOf [11, 32770, 32769, 1000]) 0 = .instr (.mod (.reg 2) (.reg 1) (.lit 1000)) 4 := by decide
theorem test_decode_and :
    decode (cellsOf [12, 32772, 32771, 32768]) 0 = .instr (.bitwiseAnd (.reg 4) (.reg 3) (.reg 0)) 4 := by decide
theorem test_decode_or :
    decode (cellsOf [13, 32773, 32771, 32768]) 0 = .instr (.bitwiseOr (.reg 5) (.reg 3) (.reg 0)) 4 := by decide
theorem test_decode_not : decode (cellsOf [14, 32771, 32770]) 0 = .instr (.bitwiseNot (.reg 3) (.reg 2)) 3 := by decide
theorem test_decode_rmem : decode (cellsOf [15, 32771, 100]) 0 = .instr (.memoryRead (.reg 3) (.lit 100)) 3 := by decide
theorem test_decode_wmem : decode (cellsOf [16, 100, 32770]) 0 = .instr (.memoryWrite (.lit 100) (.reg 2)) 3 := by
  decide
theorem test_decode_call : decode (cellsOf [17, 32769]) 0 = .instr (.functionCall (.reg 1)) 2 := by decide
theorem test_decode_ret : decode (cellsOf [18]) 0 = .instr .functionReturn 1 := by decide
theorem test_decode_out : decode (cellsOf [19, 72]) 0 = .instr (.printChar (.lit 72)) 2 := by decide
theorem test_decode_in : decode (cellsOf [20, 32770]) 0 = .instr (.readChar (.reg 2)) 2 := by decide
theorem test_decode_noop : decode (cellsOf [21]) 0 = .instr .noOp 1 := by decide

/-- W10: operand words. -/
theorem test_operand_words :
    decodeOperand 0 = some (.lit 0) ∧ decodeOperand 32767 = some (.lit 32767) ∧ decodeOperand 32768 = some (.reg 0) ∧
    decodeOperand 32775 = some (.reg 7) ∧ decodeOperand 32776 = none ∧ decodeOperand 65535 = none := by
  decide

/-- V1.2 to V1.4: rejections by name. -/
theorem test_decode_rejects :
    decode (cellsOf [22]) 0 = .unrecognized 22 1 ∧ decode (cellsOf [32768]) 0 = .unrecognized 32768 1 ∧
    decode (cellsOf [4, 32768, 32776, 65535]) 0 = .invalidOperand 32776 2 ∧
    decode (cellsOf [1, 32768]) 0 = .fetchFault 2 := by
  decide

/-- The host's numbering of instruction words: the operands of `add r7 1 2`, and a row given its opcode bits only. -/
theorem test_table_words :
    decodeTableWord 64 0x0002000180070009 = some (.add (.reg 7) (.lit 1) (.lit 2)) ∧
    decodeTableWord 16 16 = some (.memoryWrite (.lit 0) (.lit 0)) ∧ decodeTableWord 16 22 = none := by
  decide

/-- The instruction placed for the very next step after reset is the one that runs: V5.8's shape at address 0. -/
theorem test_withFetchWord :
    look (step (State.reset.withFetchWord 32 0x012C0011)) (fun t => (t.stack, t.pc)) = some ([2], 300) := by
  decide

/-! ### One step of each instruction -/

/-- V2.1, V2.3: Halt; no breakpoint check. -/
theorem test_halt :
    look (step { at_ 5 [0] with bps := [6] }) (fun t => (t.pc, t.status, t.fsm)) = some (6, .halted, .stopped) := by
  decide

/-- V2.2, V2.4: NoOp, with and without a breakpoint at the next word. -/
theorem test_noop :
    look (step (at_ 5 [21])) (fun t => (t.pc, t.status, t.fsm)) = some (6, .running, .fetchOp) ∧
    look (step { at_ 5 [21] with bps := [6] }) (fun t => (t.pc, t.status)) = some (6, .breakpoint) := by
  decide

/-- V3.1, V3.9. -/
theorem test_set :
    look (step ((boot [1, 32770, 32769]).setReg 1 77)) (fun t => (t.reg 2, t.pc)) = some (77, 3) ∧
    look (step ((boot [1, 32768, 32768]).setReg 0 9)) (fun t => (t.reg 0, t.pc)) = some (9, 3) := by
  decide

/-- V3.2. -/
theorem test_set_literal : look (step (boot [1, 5, 7])) record = some (.invalidDestination, 0, 5, 0) := by decide

/-- V3.3. -/
theorem test_push :
    look (step ((boot [2, 32772]).setReg 4 9)) (fun t => (t.stack, t.pc)) = some ([9], 2) := by
  decide

/-- V3.4. -/
theorem test_push_full :
    look (step { boot [2, 3] with stack := [2, 1], params := { busy.params with stackCapacity := some 2 } })
      (fun t => (record t, t.stack)) = some ((.stackOverflow, 0, 2, 0), [2, 1]) := by
  decide

/-- V3.5. -/
theorem test_pop :
    look (step { boot [3, 32768] with stack := [9, 7] }) (fun t => (t.reg 0, t.stack, t.pc)) = some (9, [7], 2) := by
  decide

/-- V3.6 to V3.8: Pop's three checks. -/
theorem test_pop_checks :
    look (step (boot [3, 32768])) record = some (.stackUnderflow, 0, 0, 0) ∧
    look (step (boot [3, 4])) record = some (.invalidDestination, 0, 4, 0) ∧
    look (step { boot [3, 32769] with stack := [32768, 5] }) (fun t => (record t, t.stack)) =
      some ((.valueOutOfRange, 0, 32768, 0), [32768, 5]) := by
  decide

/-- V4.1, V4.2. -/
theorem test_eq :
    look (step ((boot [4, 32769, 32768, 5]).setReg 0 5)) (fun t => (t.reg 1, t.pc)) = some (1, 4) ∧
    look (step ((boot [4, 32769, 32768, 6]).setReg 0 5)) (fun t => t.reg 1) = some 0 := by
  decide

/-- V4.3 to V4.6. -/
theorem test_gt :
    look (step (boot [5, 32769, 7, 7])) (fun t => t.reg 1) = some 0 ∧
    look (step (boot [5, 32769, 32767, 0])) (fun t => t.reg 1) = some 1 ∧
    look (step (boot [5, 32769, 0, 32767])) (fun t => t.reg 1) = some 0 ∧
    look (step ((boot [5, 32770, 32770, 2]).setReg 2 3)) (fun t => t.reg 2) = some 1 := by
  decide

/-- V5.2. -/
theorem test_jmp : look (step ((at_ 10 [6, 32773]).setReg 5 40)) (fun t => t.pc) = some 40 := by decide

/-- V5.3, V5.4, V5.14, V5.15. -/
theorem test_jt :
    look (step (at_ 10 [7, 32768, 300])) (fun t => t.pc) = some 13 ∧
    look (step ((at_ 10 [7, 32768, 300]).setReg 0 32767)) (fun t => t.pc) = some 300 ∧
    look (step { (at_ 10 [7, 32768, 300]).setReg 0 1 with bps := [300] }) (fun t => (t.pc, t.status)) =
      some (300, .breakpoint) ∧
    look (step { (at_ 10 [7, 32768, 300]).setReg 0 1 with bps := [13] }) (fun t => (t.pc, t.status)) =
      some (300, .running) := by
  decide

/-- V5.5, V5.6. -/
theorem test_jf :
    look (step (at_ 10 [8, 32768, 300])) (fun t => t.pc) = some 300 ∧
    look (step ((at_ 10 [8, 32768, 300]).setReg 0 1)) (fun t => t.pc) = some 13 := by
  decide

/-- V5.7, V5.11. -/
theorem test_call :
    look (step { at_ 10 [17, 20] with stack := [5] }) (fun t => (t.stack, t.pc)) = some ([12, 5], 20) ∧
    look (step (at_ 32766 [17, 100])) (fun t => (t.stack, t.pc)) = some ([32768], 100) := by
  decide

/-- V5.13. -/
theorem test_call_full :
    look (step { at_ 10 [17, 20] with stack := [0], params := { busy.params with stackCapacity := some 1 } })
      (fun t => (record t, t.stack)) = some ((.stackOverflow, 10, 1, 10), [0]) := by
  decide

/-- V5.9, V5.12's first step, V5.10. -/
theorem test_ret :
    look (step { at_ 10 [18] with stack := [40, 5] }) (fun t => (t.stack, t.pc)) = some ([5], 40) ∧
    look (step { at_ 100 [18] with stack := [32768] }) (fun t => (t.pc, t.fsm)) = some (32768, .fetchOp) ∧
    look (step (at_ 10 [18])) record = some (.stackUnderflow, 10, 0, 10) := by
  decide

/-- V6.1, V6.2. -/
theorem test_add :
    look (step (boot [9, 32768, 16384, 16384])) (fun t => t.reg 0) = some 0 ∧
    look (step (boot [9, 32768, 32767, 32767])) (fun t => t.reg 0) = some 32766 := by
  decide

/-- V6.4, V6.5. -/
theorem test_mult :
    look (step (boot [10, 32768, 32767, 32767])) (fun t => t.reg 0) = some 1 ∧
    look (step (boot [10, 32768, 200, 200])) (fun t => t.reg 0) = some 7232 := by
  decide

/-- V6.8, V6.10. -/
theorem test_mod :
    look (step (boot [11, 32768, 3, 5])) (fun t => t.reg 0) = some 3 ∧
    look (step (boot [11, 32768, 32767, 2])) (fun t => t.reg 0) = some 1 := by
  decide

/-- V6.11, V6.12. -/
theorem test_mod_zero :
    look (step (boot [11, 32768, 7, 0])) (fun t => (record t, t.reg 0)) = some ((.divideByZero, 0, 7, 0), 0) ∧
    look (step (boot [11, 9, 7, 0])) record = some (.invalidDestination, 0, 9, 0) := by
  decide

/-- V6.13. -/
theorem test_and : look (step (boot [12, 32768, 31942, 12345])) (fun t => t.reg 0) = some 12288 := by decide

/-- V6.15. -/
theorem test_or : look (step (boot [13, 32768, 31942, 12345])) (fun t => t.reg 0) = some 31999 := by decide

/-- V6.17, V6.19. -/
theorem test_not :
    look (step (boot [14, 32768, 0])) (fun t => t.reg 0) = some 32767 ∧
    look (step (boot [14, 32768, 21845])) (fun t => t.reg 0) = some 10922 := by
  decide

/-- V7.2, V7.4. -/
theorem test_rmem :
    look (step { (boot [15, 32771, 32769]).setReg 1 100 with mem := [(0, 15), (1, 32771), (2, 32769), (100, 5)] })
      (fun t => t.reg 3) = some 5 ∧
    look (step (boot [15, 32768, 0])) (fun t => t.reg 0) = some 15 := by
  decide

/-- V7.3. -/
theorem test_rmem_wide :
    look (step (boot [15, 32768, 1])) (fun t => (record t, t.reg 0)) = some ((.valueOutOfRange, 0, 32768, 0), 0) := by
  decide

/-- V7.5, V7.6, V7.7. -/
theorem test_wmem :
    look (step ((boot [16, 100, 32770]).setReg 2 9)) (fun t => (t.mem.read 100, t.mem.read 101, t.pc)) =
      some (9, 0, 3) ∧
    look (step (boot [16, 32767, 32767])) (fun t => t.mem.read 32767) = some 32767 ∧
    look (step (boot [16, 2, 5])) (fun t => (t.mem.read 2, t.pc)) = some (5, 3) := by
  decide

/-- Storing what an unlisted cell reads as removes the entry (log entry 1). -/
theorem test_wmem_zero : look (step (boot [16, 1, 0])) (fun t => t.mem) = some [(0, 16)] := by decide

/-- V8.2, V8.3. -/
theorem test_out :
    look (step ((boot [19, 32768]).setReg 0 20000)) (fun t => (t.outlog, t.pc)) = some ([20000], 2) ∧
    look (step { boot [19, 72] with outEn := false }) (fun t => (t.outlog, t.pc)) = some ([], 2) := by
  decide

/-- V8.4, V8.8. -/
theorem test_in :
    look (step { boot [20, 32770] with inq := [65, 66], bps := [2] }) (fun t => (t.reg 2, t.inq, t.pc, t.status)) =
      some (65, [66], 2, .breakpoint) := by
  decide

/-- V8.5 to V8.7: starving, and the destination check before it. -/
theorem test_in_empty :
    look (step { boot [20, 32770] with bps := [0] }) (fun t => (t.pc, t.status, t.fsm)) =
      some (0, .inputStarved, .stopped) ∧
    look (step (boot [20, 9])) record = some (.invalidDestination, 0, 9, 0) := by
  decide

/-! ### Faults of fetch and decode -/

/-- V1.3, V1.4, V1.5, V1.6. -/
theorem test_fetch_faults :
    look (step (boot [40000])) record = some (.unrecognizedOpcode, 0, 40000, 0) ∧
    look (step (boot [4, 32768, 32776, 65535])) record = some (.invalidOperand, 0, 32776, 0) ∧
    look (step (at_ 32767 [1])) record = some (.fetchOutOfRange, 32767, 32768, 32767) ∧
    look (step (at_ 32768 [])) record = some (.fetchOutOfRange, 32768, 32768, 32768) := by
  decide

/-! ### Host transactions -/

/-- W9, V9.2, V9.1's odd neighbour. -/
theorem test_load_image :
    (hostOp (.loadImage [1, 0, 0, 128, 7, 0]) { State.reset with mem := [(5, 9)] }).2.mem =
      [(0, 1), (1, 32768), (2, 7), (5, 9)] ∧
    (hostOp (.loadImage [255, 255]) State.reset).2.mem = [(0, 65535)] ∧
    (hostOp (.loadImage [1, 0, 0]) State.reset).1 = .rejected := by
  decide

/-- V9.3, V9.4, V9.5, V9.13. -/
theorem test_host_ranges :
    (hostOp (.setReg 0 32768) State.reset).1 = .rejected ∧ (hostOp (.setReg 8 0) State.reset).1 = .rejected ∧
    (hostOp (.setReg 7 32767) State.reset).2.reg 7 = 32767 ∧ (hostOp (.addBreakpoint 32768) State.reset).1 = .rejected ∧
    (hostOp (.setOutput 2) State.reset).1 = .rejected ∧ (hostOp (.setMem 0 65535) State.reset).2.mem = [(0, 65535)] := by
  decide

/-- V9.6, V9.7. -/
theorem test_append_input :
    hostOp (.appendInput [65, 40000]) { State.reset with inq := [1] } = (.rejected, { State.reset with inq := [1] }) ∧
    (hostOp (.appendInput [200, 32767]) { State.reset with inq := [1] }).2.inq = [1, 200, 32767] := by
  decide

/-- V9.9, V9.11: a faulted CORE refuses RUN, a running one everything but RESET. -/
theorem test_run_refused :
    (hostOp .run { State.reset with status := .faulted, faultCause := .divideByZero }).1 = .rejected ∧
    (hostOp .getPc (boot [6, 0])).1 = .rejected ∧ (hostOp .reset (boot [6, 0])).2.status = .idle := by
  decide

/-- V9.12. -/
theorem test_read_output :
    (hostOp .readOutput { State.reset with outlog := [7] }).1 = .ok (.output [7]) ∧
    (hostOp .readOutput (hostOp .readOutput { State.reset with outlog := [7] }).2).1 = .ok (.output []) := by
  decide

/-- R26, R108: the codes the host reads. -/
theorem test_status_codes :
    (hostOp .getStatus { State.reset with status := .faulted, faultCause := .stackOverflow, faultAddr := 3,
                                          faultInfo := 2 }).1 = .ok (.statusAndFault 5 8 3 2) ∧
    (hostOp .getStatus { State.reset with status := .inputStarved }).1 = .ok (.statusAndFault 4 0 0 0) := by
  decide

/-! ### Witnesses for the obligations that have hypotheses -/

theorem witness_DecodeReadsBackEveryEncoding :
    ∀ j w, (encode (.add (.reg 0) (.lit 32767) (.reg 7)))[j]? = some w →
      cellsOf [9, 32768, 32767, 32775] (0 + j) = some w := by
  intro j w h
  rw [Nat.zero_add]
  exact h

/-- The last address an Add can stand at. -/
theorem witness_DecodedInstructionStandsInMemory :
    decode (at_ 32764 [9, 32768, 0, 32775]).mem.cellAt 32764 = .instr (.add (.reg 0) (.lit 0) (.reg 7)) 4 := by
  decide

/-- The ends of the three ranges. -/
theorem witness_OperandWordsAndTheirValues :
    (decodeOperand 32767 = some (.lit 32767) ∧ (32767 : Word16).toNat < 32768) ∧
    (decodeOperand 32768 = some (.reg 0) ∧ 32768 ≤ (32768 : Word16).toNat) ∧
    (decodeOperand 32775 = some (.reg 7) ∧ (32775 : Word16).toNat ≤ 32775) ∧
    (decodeOperand 32776 = none ∧ 32776 ≤ (32776 : Word16).toNat) := by
  decide

/-- The opcode words 21 and 22, at the last address. -/
theorem witness_UnrecognizedOpcodeFaults :
    ((at_ 32767 [22]).fsm = .fetchOp ∧ (at_ 32767 [22]).pc.toNat < 32768 ∧
      22 ≤ ((at_ 32767 [22]).mem.read 32767).toNat ∧
      look (step (at_ 32767 [22])) record = some (.unrecognizedOpcode, 32767, 22, 32767)) ∧
    ((at_ 32767 [21]).mem.read 32767).toNat ≤ 21 ∧ look (step (at_ 32767 [21])) State.pc = some 32768 := by
  decide

/-- A missing opcode word, a missing second operand, and a first bad operand. -/
theorem witness_DecodeStopsAtTheFirstFailingWord :
    decode (cellsOf []) 0 = .fetchFault 0 ∧ decode (cellsOf [9, 32768, 1]) 0 = .fetchFault 3 ∧
    decode (cellsOf [9, 32768, 1, 32776]) 0 = .invalidOperand 32776 3 ∧
    decode (cellsOf [19, 65535]) 0 = .invalidOperand 65535 1 := by
  decide

/-- A normal end at a breakpoint, one elsewhere, and an end that is not checked. -/
theorem witness_StepRunsTheDecodedInstruction :
    (boot [21]).fsm = .fetchOp ∧ decode (boot [21]).mem.cellAt (boot [21]).pc.toNat = .instr .noOp 1 ∧
    look (exec .noOp (latchInstr .noOp 1 { boot [21] with bps := [1] })) (fun t => (t.fsm, t.atBreakpoint)) =
      some (.check, true) ∧
    look (exec .noOp (latchInstr .noOp 1 (boot [21]))) (fun t => (t.fsm, t.atBreakpoint)) = some (.check, false) ∧
    decode (boot [0]).mem.cellAt (boot [0]).pc.toNat = .instr .halt 1 ∧
    look (exec .halt (latchInstr .halt 1 (boot [0]))) State.fsm = some .stopped := by
  decide

theorem witness_StepFaultsWhereDecodingFails :
    (decode (at_ 32768 []).mem.cellAt (at_ 32768 []).pc.toNat = .fetchFault 32768 ∧ (at_ 32768 []).fsm = .fetchOp) ∧
    decode (at_ 32767 [9]).mem.cellAt (at_ 32767 [9]).pc.toNat = .fetchFault 32768 ∧
    decode (boot [22]).mem.cellAt (boot [22]).pc.toNat = .unrecognized 22 1 ∧
    decode (boot [1, 32776]).mem.cellAt (boot [1, 32776]).pc.toNat = .invalidOperand 32776 1 := by
  decide

/-- A breakpoint met, one passed, and the three ends that are not checked. -/
theorem witness_BreakpointsStopOnArrival :
    look (step { boot [21] with bps := [1] }) (fun t => (t.status, t.atBreakpoint)) = some (.breakpoint, true) ∧
    look (step { boot [21] with bps := [0] }) (fun t => (t.status, t.atBreakpoint)) = some (.running, false) ∧
    look (step { boot [0] with bps := [1] }) State.status = some .halted ∧
    look (step { boot [20, 32768] with bps := [0] }) State.status = some .inputStarved ∧
    look (step { boot [18] with bps := [0] }) State.status = some .faulted ∧
    look (fsmStep { boot [] with fsm := .check, bps := [0] }) State.status = some .breakpoint ∧
    look (fsmStep { boot [] with fsm := .check }) State.fsm = some .fetchOp := by
  decide

/-- FETCH_OP on an opcode without operands, on one with operands, on no opcode, and past the end of memory. -/
theorem witness_FsmFetchTransitions_opcode :
    look (fsmStep (boot [21])) (fun t => (t.fsm, t.pc, t.k)) = some (.execute, 1, 0) ∧
    look (fsmStep (boot [9])) (fun t => (t.fsm, t.pc, t.k)) = some (.fetchOpnd, 1, 0) ∧
    look (fsmStep (boot [22])) record = some (.unrecognizedOpcode, 0, 22, 0) ∧
    look (fsmStep (at_ 32768 [])) record = some (.fetchOutOfRange, 32768, 32768, 32768) := by
  decide

/-- FETCH_OPND on the last operand, on one that is not the last, and on its two faults. -/
theorem witness_FsmFetchTransitions_operand :
    look (fsmStep { at_ 32767 [32775] with fsm := .fetchOpnd, opc := 9, k := 2 })
      (fun t => (t.fsm, t.pc, t.k.val, t.opnd[2])) = some (.execute, 32768, 3, .reg 7) ∧
    look (fsmStep { boot [5] with fsm := .fetchOpnd, opc := 9, k := 1 }) (fun t => (t.fsm, t.k.val, t.opnd[1])) =
      some (.fetchOpnd, 2, .lit 5) ∧
    look (fsmStep { boot [32776] with fsm := .fetchOpnd, opc := 19, opaddr := 7 }) record =
      some (.invalidOperand, 7, 32776, 7) ∧
    look (fsmStep { at_ 32768 [] with fsm := .fetchOpnd, opc := 19, opaddr := 32767 }) record =
      some (.fetchOutOfRange, 32767, 32768, 32767) := by
  decide

theorem witness_FsmKeepsStatusAndLatchesConsistent :
    State.Coherent { boot [5] with fsm := .fetchOpnd, opc := 9, k := 2 } ∧
    State.LatchesConsistent { boot [5] with fsm := .fetchOpnd, opc := 9, k := 2 } ∧
    State.Coherent { boot [5] with fsm := .execute, opc := 21 } ∧
    State.LatchesConsistent { boot [5] with fsm := .execute, opc := 21 } :=
  ⟨by simp [State.Coherent, boot, at_], ⟨fun _ => ⟨_, rfl, by decide⟩, nofun⟩, by simp [State.Coherent, boot, at_],
    ⟨nofun, fun _ => ⟨_, rfl⟩⟩⟩

/-- The FSM reaches the step's state, on an instruction of each length and on each kind of decode fault. -/
theorem witness_FsmReachesTheStateOfTheStep :
    [[21], [19, 72], [1, 32768, 7], [9, 32768, 1, 2], [22], [1, 32776], [9, 32768, 40000], [18]].all (fun ws =>
      look (step (boot ws)) State.forgetLatches == look (fsmToBoundary 6 (boot ws)) State.forgetLatches) = true := by
  decide

theorem witness_LatchesAreNotObservable :
    (boot [21]).atBoundary = true ∧
    State.forgetLatches { boot [21] with opc := 99, opaddr := 5, k := 3, opnd := Vector.replicate 3 (.reg 1) } =
      (boot [21]).forgetLatches := by
  decide

theorem fits_some {cap n : Nat} (h : n ≤ cap) : Fits (some cap) n := by
  intro _ e
  cases e
  exact h

theorem fits_none (n : Nat) : Fits none n := nofun

/-- A state of the invariant at the ends of its bounds: a full stack with a return address of 32768, a full queue, a
full breakpoint set, `pc` at 32768. -/
def brimful : State :=
  { busy with pc := 32768, stack := [32768, 1, 2], inq := [1, 2, 3, 4], status := .running, fsm := .fetchOp }

theorem brimful_inv : brimful.Inv where
  memory := by decide
  pcBound := by decide
  stackBound := by simp [brimful]
  stackFits := fits_some (by decide)
  inputFits := fits_some (by decide)
  breakpointsFit := fits_some (by decide)
  breakpointsSorted := by decide
  boundary := by decide
  coherent := by simp [State.Coherent, brimful]
  faultedIffCause := by decide
  noFaultRecord := fun _ => ⟨rfl, rfl⟩
  faultAddrIsPc := nofun
  outputRead := by decide

/-- The invariant holds at brimful and the step from there is the fetch fault at 32768. -/
theorem witness_StepKeepsTheInvariant :
    brimful.Inv ∧ look (step brimful) record = some (.fetchOutOfRange, 32768, 32768, 32768) :=
  ⟨brimful_inv, by decide⟩

/-- The same state stopped, where the host is answered. -/
theorem witness_HostKeepsTheInvariant :
    State.Inv { brimful with status := .halted, fsm := .stopped } ∧
    (hostOp (.addBreakpoint 7) { brimful with status := .halted, fsm := .stopped }).1 = .rejected ∧
    (hostOp (.setMem 32767 65535) { brimful with status := .halted, fsm := .stopped }).1 = .ok .nothing :=
  ⟨{ brimful_inv with
      boundary := .inl rfl
      coherent := by simp [State.Coherent]
      faultedIffCause := by decide
      noFaultRecord := fun _ => ⟨rfl, rfl⟩
      faultAddrIsPc := nofun }, by decide, by decide⟩

/-- A state that CORE and the host reach together: reset, an image with a NoOp, RUN, one step. -/
theorem witness_ReachableStatesNeverStopTheModel :
    ∃ t, Reachable busy.params t ∧ t.pc = 1 ∧ t.fsm = .fetchOp :=
  ⟨_, .event .core _ _
      (.event (.host .run) _ _ (.event (.host (.loadImage [21, 0])) _ _ .reset rfl) rfl) rfl, by decide, by decide⟩

/-- Each of the four outcomes. -/
theorem witness_ExecuteStepEndsInOneOfFourOutcomes :
    look (exec .noOp busy) State.fsm = some .check ∧ look (exec .halt busy) State.status = some .halted ∧
    look (exec (.readChar (.reg 7)) { busy with inq := [] }) (fun t => (t.status, t.pc)) = some (.inputStarved, 10) ∧
    look (exec (.readChar (.lit 7)) busy) State.status = some .faulted := by
  decide

/-- Register 7 is the destination, register 6 is not; a literal names no register. -/
theorem witness_OnlyTheDestinationRegisterIsWritten :
    look (exec (.add (.reg 7) (.lit 1) (.lit 2)) busy) (fun t => (t.reg 7, t.reg 6)) = some (3, 0) ∧
    Instr.destination (.add (.reg 7) (.lit 1) (.lit 2)) ≠ some (.reg 6) ∧
    Instr.destination (.memoryWrite (.reg 6) (.lit 2)) ≠ some (.reg 6) ∧
    look (exec (.memoryWrite (.reg 6) (.lit 2)) busy) (fun t => t.reg 6) = some 0 := by
  decide

/-- A store, a push, a call, a pop, a return, a read and a write of a character that do change what they use. -/
theorem witness_EachStoreIsUsedOnlyByItsInstructions :
    look (exec (.memoryWrite (.lit 3) (.lit 2)) busy) (fun t => t.mem.read 3) = some 2 ∧ busy.mem.read 3 = 7 ∧
    look (exec (.push (.lit 4)) busy) State.stack = some [4, 9, 32768] ∧
    look (exec (.functionCall (.lit 4)) busy) State.stack = some [12, 9, 32768] ∧
    look (exec (.pop (.reg 0)) busy) State.stack = some [32768] ∧
    look (exec .functionReturn busy) (fun t => (t.stack, t.pc)) = some ([32768], 9) ∧
    look (exec (.readChar (.reg 0)) busy) State.inq = some [66] ∧
    look (exec (.printChar (.lit 4)) busy) State.outlog = some [4] := by
  decide

/-- A cause from each list of two or more, and one from a list of one. -/
theorem witness_FaultCausesOfEachInstruction :
    look (exec (.pop (.reg 0)) { busy with stack := [32768] }) (fun t => (t.fsm, t.status, t.faultCause)) =
      some (.stopped, .faulted, .valueOutOfRange) ∧
    look (exec (.mod (.reg 0) (.lit 5) (.lit 0)) busy) State.faultCause = some .divideByZero ∧
    look (exec (.memoryRead (.reg 0) (.lit 100)) busy) State.faultCause = some .valueOutOfRange ∧
    look (exec (.push (.lit 0)) { busy with stack := [1, 2, 3] }) State.faultCause = some .stackOverflow := by
  decide

/-- A decode fault and an execute fault of a running CORE. -/
theorem witness_FaultsArePrecise :
    (boot [22]).fsm = .fetchOp ∧ (boot [22]).status = .running ∧
    look (step (boot [22])) State.status = some .faulted ∧ look (step (boot [18])) State.status = some .faulted := by
  decide

/-- A faulted state of the invariant. -/
theorem witness_FaultsAreSticky :
    State.Inv { State.reset with status := .faulted, faultCause := .unrecognizedOpcode, faultInfo := 22 } where
  memory := by decide
  pcBound := by decide
  stackBound := by simp [State.reset]
  stackFits := fits_none _
  inputFits := fits_none _
  breakpointsFit := fits_none _
  breakpointsSorted := by decide
  boundary := by decide
  coherent := by simp [State.Coherent, State.reset]
  faultedIffCause := by decide
  noFaultRecord := fun h => absurd rfl h
  faultAddrIsPc := fun _ => rfl
  outputRead := by decide

/-- All five outcomes of a step in a run. -/
theorem witness_RunHasExactlyFourExits :
    (boot [21]).fsm = .fetchOp ∧ (boot [21]).status = .running ∧
    look (step (boot [21])) State.status = some .running ∧ look (step (boot [0])) State.status = some .halted ∧
    look (step { boot [21] with bps := [1] }) State.status = some .breakpoint ∧
    look (step (boot [20, 32768])) State.status = some .inputStarved ∧
    look (step (boot [22])) State.status = some .faulted := by
  decide

/-- The one instruction where OUT_EN shows, with a record from before in each of the two states. -/
theorem witness_OutputEnableOnlyAffectsTheOutput :
    (boot [19, 72]).atBoundary = true ∧
    look (step { boot [19, 72] with outlog := [1] }) (fun t => (t.outlog, t.pc)) = some ([1, 72], 2) ∧
    look (step { boot [19, 72] with outEn := false, outlog := [5] }) (fun t => (t.outlog, t.pc)) = some ([5], 2) := by
  decide

/-- The last cell of memory, where the RUN after the halt is a fetch fault. -/
theorem witness_HaltEndsTheRun :
    (at_ 32767 [0]).fsm = .fetchOp ∧ (at_ 32767 [0]).pc.toNat < 32768 ∧ (at_ 32767 [0]).mem.read 32767 = 0 ∧
    look (step (at_ 32767 [0])) (fun t => (t.pc, t.status)) = some (32768, .halted) := by
  decide

/-- A full stack, one entry short of it, and no bound. -/
theorem witness_PushPutsTheSourceOnTop :
    brimful.params.stackCapacity = some brimful.stack.length ∧
    look (exec (.push (.lit 5)) brimful) (fun t => (t.faultCause, t.faultInfo)) = some (.stackOverflow, 3) ∧
    busy.params.stackCapacity ≠ some busy.stack.length ∧
    look (exec (.push (.lit 32767)) busy) State.stack = some [32767, 9, 32768] ∧
    State.reset.params.stackCapacity ≠ some State.reset.stack.length := by
  decide

/-- An empty stack, a top entry of 32768 and one of 32767. -/
theorem witness_PopTakesTheTopEntry :
    look (exec (.pop (.reg 0)) { busy with stack := [] }) State.faultCause = some .stackUnderflow ∧
    look (exec (.pop (.reg 0)) { busy with stack := [32768] }) (fun t => (t.faultCause, t.faultInfo)) =
      some (.valueOutOfRange, 32768) ∧
    look (exec (.pop (.reg 0)) { busy with stack := [32767, 1] }) (fun t => (t.reg 0, t.stack)) = some (32767, [1]) := by
  decide

/-- A condition of 0 and one of 1. -/
theorem witness_JumpsWriteTheTarget :
    operandValue busy (.reg 0) = 0 ∧ operandValue busy (.lit 1) ≠ 0 ∧
    look (exec (.jumpIfTrue (.reg 0) (.lit 32767)) busy) State.pc = some 12 ∧
    look (exec (.jumpIfTrue (.lit 1) (.lit 32767)) busy) State.pc = some 32767 ∧
    look (exec (.jumpIfFalse (.reg 0) (.lit 32767)) busy) State.pc = some 32767 ∧
    look (exec (.jumpIfFalse (.lit 1) (.lit 32767)) busy) State.pc = some 12 := by
  decide

theorem witness_FunctionCallPushesTheReturnAddress :
    brimful.params.stackCapacity = some brimful.stack.length ∧
    look (exec (.functionCall (.lit 5)) brimful) (fun t => (t.faultCause, t.faultInfo)) = some (.stackOverflow, 3) ∧
    busy.params.stackCapacity ≠ some busy.stack.length ∧
    look (exec (.functionCall (.lit 5)) busy) (fun t => (t.stack, t.pc)) = some ([12, 9, 32768], 5) := by
  decide

theorem witness_FunctionReturnPopsIntoPc :
    look (exec .functionReturn { busy with stack := [] }) (fun t => (t.faultCause, t.faultInfo)) =
      some (.stackUnderflow, 0) ∧
    look (exec .functionReturn { busy with stack := [32768] }) (fun t => (t.stack, t.pc)) = some ([], 32768) ∧
    decode (at_ 100 [18]).mem.cellAt (at_ 100 [18]).pc.toNat = .instr .functionReturn 1 ∧
    look (step { at_ 100 [18] with stack := [32768] }) (fun t => (t.pc, t.fsm)) = some (32768, .fetchOp) := by
  decide

/-- A divisor of 0 and one of 1. -/
theorem witness_ModFaultsOnAZeroDivisor :
    operandValue busy (.reg 0) = 0 ∧
    look (exec (.mod (.reg 1) (.lit 32767) (.reg 0)) busy) (fun t => (t.faultCause, t.faultInfo)) =
      some (.divideByZero, 32767) ∧
    operandValue busy (.lit 1) ≠ 0 ∧ look (exec (.mod (.reg 1) (.lit 32767) (.lit 1)) busy) (fun t => t.reg 1) = some 0 := by
  decide

/-- A cell above 32767 and one of 32767. -/
theorem witness_MemoryReadLoadsTheCell :
    32767 < (busy.mem.read (operandValue busy (.lit 100))).toNat ∧
    look (exec (.memoryRead (.reg 1) (.lit 100)) busy) (fun t => (t.faultCause, t.faultInfo)) =
      some (.valueOutOfRange, 40000) ∧
    (busy.mem.read (operandValue busy (.lit 101))).toNat ≤ 32767 ∧
    look (exec (.memoryRead (.reg 1) (.lit 101)) busy) (fun t => t.reg 1) = some 32767 := by
  decide

/-- The stored address, at the end of memory, and its neighbour. -/
theorem witness_MemoryWriteStoresTheValue :
    resolveAddr busy (.lit 32767) = 32767 ∧
    look (exec (.memoryWrite (.lit 32767) (.lit 5)) busy) (fun t => (t.mem.read 32767, t.mem.read 32766)) =
      some (5, 0) := by
  decide

theorem witness_MemoryPortReadsTheLatestWrite :
    busy.mem.wf ∧ (busy.mem.write 32767 65535).wf ∧ (busy.mem.write 100 0).wf ∧
    (busy.mem.write 100 0).read 100 = 0 ∧ (busy.mem.write 100 0).read 101 = 32767 := by
  decide

theorem witness_PrintCharEmitsWhenEnabled :
    busy.outEn = true ∧ look (exec (.printChar (.lit 32767)) busy) State.outlog = some [32767] ∧
    look (exec (.printChar (.lit 32767)) { busy with outEn := false }) State.outlog = some [] := by
  decide

theorem witness_ReadCharTakesTheOldestOrStarves :
    look (exec (.readChar (.reg 1)) { busy with inq := [] }) (fun t => (t.status, t.pc)) = some (.inputStarved, 10) ∧
    look (exec (.readChar (.reg 1)) busy) (fun t => (t.reg 1, t.inq)) = some (65, [66]) := by
  decide

/-- The four STATUS values that accept RUN, FAULTED, and a running CORE. -/
theorem witness_RunStartsOnlyAStoppedUnfaultedCore :
    [Status.idle, .halted, .breakpoint, .inputStarved].all (fun st =>
      (hostOp .run { State.reset with status := st }).1 == .ok .nothing) = true ∧
    (hostOp .run { State.reset with status := .faulted }).1 = .rejected ∧ (hostOp .run (boot [21])).1 = .rejected := by
  decide

theorem witness_HostIsRejectedWhileRunning :
    (boot [21]).fsm ≠ .stopped ∧ HostOp.getStatus ≠ .reset ∧ (hostOp .getStatus (boot [21])).1 = .rejected := by
  decide

/-- An odd image, the largest image, and one word more. -/
theorem witness_LoadImagePlacesLittleEndianWords :
    [(1 : ImageByte), 0, 2].length % 2 = 1 ∧ (List.replicate 65536 (0 : ImageByte)).length / 2 ≤ 32768 ∧
    32768 < (List.replicate 65538 (0 : ImageByte)).length / 2 ∧
    (hostOp (.loadImage [1, 2]) { busy with fsm := .stopped }).2.mem.read 0 = 513 := by
  refine ⟨by decide, ?_, ?_, by decide⟩ <;> simp only [List.length_replicate] <;> decide

/-- R26 and R108: the number GET_STATUS answers with for each STATUS and each cause. -/
theorem witness_HostReadsReturnTheState_codes :
    [Status.idle, .running, .halted, .breakpoint, .inputStarved, .faulted].map (fun st =>
      (hostOp .getStatus { State.reset with status := st }).1) =
      [0, 1, 2, 3, 4, 5].map (fun n => .ok (.statusAndFault n 0 0 0)) ∧
    [FaultCause.noFault, .fetchOutOfRange, .unrecognizedOpcode, .invalidOperand, .stackUnderflow, .invalidDestination,
      .divideByZero, .valueOutOfRange, .stackOverflow].map (fun c =>
      (hostOp .getStatus { State.reset with faultCause := c }).1) =
      [0, 1, 2, 3, 4, 5, 6, 7, 8].map (fun n => .ok (.statusAndFault 0 n 0 0)) := by
  decide

/-- Registers 7 and 8, cells 32767 and 32768. -/
theorem witness_HostReadsReturnTheState :
    (hostOp (.getReg 7) State.reset).1 = .ok (.regValue 0) ∧ (hostOp (.getReg 8) State.reset).1 = .rejected ∧
    (hostOp (.getMem 32767) State.reset).1 = .ok (.cellValue 0) ∧ (hostOp (.getMem 32768) State.reset).1 = .rejected := by
  decide

theorem witness_HostWritesAreRangeChecked :
    (hostOp (.setReg 7 32767) State.reset).1 = .ok .nothing ∧ (hostOp (.setReg 7 32768) State.reset).1 = .rejected ∧
    (hostOp (.setReg 8 32767) State.reset).1 = .rejected ∧
    (hostOp (.setMem 32767 65535) State.reset).1 = .ok .nothing ∧
    (hostOp (.setMem 32768 65535) State.reset).1 = .rejected ∧
    (hostOp (.setMem 32767 65536) State.reset).1 = .rejected := by
  decide

/-- A full set: an address in it, one not in it; and a set with room. -/
theorem witness_AddBreakpointAddsToTheSet :
    hostOp (.addBreakpoint 300) { busy with fsm := .stopped } = (.ok .nothing, { busy with fsm := .stopped }) ∧
    (hostOp (.addBreakpoint 32767) { busy with fsm := .stopped }).1 = .rejected ∧
    (hostOp (.addBreakpoint 32767) { busy with fsm := .stopped, bps := [5] }).2.bps = [5, 32767] ∧
    (hostOp (.addBreakpoint 32768) { busy with fsm := .stopped, bps := [5] }).1 = .rejected := by
  decide

/-- Exactly to the capacity of 4, and one past it. -/
theorem witness_AppendInputIsAllOrNothing :
    (hostOp (.appendInput [32767, 0]) { busy with fsm := .stopped }).2.inq = [65, 66, 32767, 0] ∧
    (hostOp (.appendInput [1, 2, 3]) { busy with fsm := .stopped }).1 = .rejected ∧
    (hostOp (.appendInput [32768]) { busy with fsm := .stopped }).1 = .rejected := by
  decide

theorem witness_OutputSwitchAndOutputRead :
    (hostOp (.setOutput 0) State.reset).2.outEn = false ∧ (hostOp (.setOutput 1) State.reset).2.outEn = true ∧
    (hostOp (.setOutput 2) State.reset).1 = .rejected ∧
    (hostOp .readOutput { State.reset with outlog := [7, 8, 9], outRead := 1 }).1 = .ok (.output [8, 9]) := by
  decide

/-- The first two RUNs of V1.7. -/
theorem witness_EmptyMemoryHaltsAtEachRun :
    look (runsOfOneStep 1 State.reset) (fun t => (t.status, t.pc)) = some (.halted, 1) ∧
    look (runsOfOneStep 2 State.reset) (fun t => (t.status, t.pc)) = some (.halted, 2) := by
  decide

/-- V9.11's loop, at the last place it fits. -/
theorem witness_SelfJumpNeverEnds :
    (at_ 32766 [6, 32766]).fsm = .fetchOp ∧ (at_ 32766 [6, 32766]).status = .running ∧
    (32766 : Word15).toNat = (at_ 32766 [6, 32766]).pc.toNat ∧
    decode (at_ 32766 [6, 32766]).mem.cellAt (at_ 32766 [6, 32766]).pc.toNat = .instr (.jump (.lit 32766)) 2 ∧
    (at_ 32766 [6, 32766]).atBreakpoint = false := by
  decide

/-- W6. -/
theorem witness_CallThenReturnIsARoundTrip :
    (boot [17, 5, 0, 0, 0, 18]).fsm = .fetchOp ∧ (boot [17, 5, 0, 0, 0, 18]).bps = [] ∧
    (boot [17, 5, 0, 0, 0, 18]).params.stackCapacity ≠ some (boot [17, 5, 0, 0, 0, 18]).stack.length ∧
    decode (boot [17, 5, 0, 0, 0, 18]).mem.cellAt 0 = .instr (.functionCall (.lit 5)) 2 ∧
    decode (boot [17, 5, 0, 0, 0, 18]).mem.cellAt (operandValue (boot [17, 5, 0, 0, 0, 18]) (.lit 5)) =
      .instr .functionReturn 1 := by
  decide

/-- P5 before its second RUN. -/
theorem witness_StarvedReadResumes :
    ∃ s : State, s.Inv ∧ s.status = .inputStarved ∧ s.inq = [] ∧
      decode s.mem.cellAt s.pc.toNat = .instr (.readChar (.reg 0)) 2 ∧ Fits s.params.inputCapacity 1 := by
  refine ⟨{ boot [20, 32768, 19, 32768, 0] with status := .inputStarved, fsm := .stopped }, ?_, rfl, rfl, by decide,
    fits_none _⟩
  exact
    { memory := by decide
      pcBound := by decide
      stackBound := by simp [boot, at_, State.reset]
      stackFits := fits_none _
      inputFits := fits_none _
      breakpointsFit := fits_none _
      breakpointsSorted := by decide
      boundary := .inl rfl
      coherent := by simp [State.Coherent]
      faultedIffCause := by decide
      noFaultRecord := fun _ => ⟨rfl, rfl⟩
      faultAddrIsPc := nofun
      outputRead := by decide }

/-- P6's first instruction; a value from a register that overwrites its own operand word; and operands in registers, at the end of memory. -/
theorem witness_FetchSeesAMemoryWriteAtOnce :
    decode (boot [16, 5, 0]).mem.cellAt (boot [16, 5, 0]).pc.toNat = .instr (.memoryWrite (.lit 5) (.lit 0)) 3 ∧
    look (step ((boot [16, 2, 32768]).setReg 0 6)) (fun t => t.mem.cellAt 2) = some (some 6) ∧
    (boot [16, 2, 32768]).mem.cellAt 2 = some 32768 ∧
    decode (boot [16, 32768, 32769]).mem.cellAt 0 = .instr (.memoryWrite (.reg 0) (.reg 1)) 3 ∧
    look (step (((boot [16, 32768, 32769]).setReg 0 32767).setReg 1 9)) (fun t => t.mem.cellAt 32767) =
      some (some 9) ∧
    (boot [16, 32768, 32769]).mem.cellAt 32767 = some 0 := by
  decide

/-- A stopped CORE of each STATUS a stop can have, and a transaction other than RUN. -/
theorem witness_StoppedIsLeftOnlyByTheHost :
    [Status.idle, .halted, .breakpoint, .inputStarved, .faulted].all (fun st =>
      look (step { boot [21] with fsm := .stopped, status := st }) State.pc == some 0 &&
      (hostOp (.setReg 0 5) { boot [21] with fsm := .stopped, status := st }).2.status == st) = true ∧
    HostOp.setReg 0 5 ≠ .run ∧ HostOp.setReg 0 5 ≠ .reset := by
  decide

end Sys2Proof.Tests
end

/-! ## The state's statements: what exec writes, the invariant, and what cannot be observed (10_state.md) -/

namespace Sys2Proof.Machine

/-! ### The invariant: its two halves, and the states it is restored in -/

/-- The half of the invariant that says nothing about STATUS, the FSM and the fault record: it holds inside an
instruction too. -/
structure State.DataInv (s : State) : Prop where
  memory : s.mem.wf
  pcBound : s.pc.toNat ≤ 32768
  stackBound : ∀ v ∈ s.stack, v.toNat ≤ 32768
  stackFits : Fits s.params.stackCapacity s.stack.length
  inputFits : Fits s.params.inputCapacity s.inq.length
  breakpointsFit : Fits s.params.breakpointCapacity s.bps.length
  breakpointsSorted : s.bps.Pairwise (· < ·)
  outputRead : s.outRead ≤ s.outlog.length

/-- The fault record of a CORE that has not faulted (10_state.md R27). -/
structure State.RecordClear (s : State) : Prop where
  cause : s.faultCause = .noFault
  addr : s.faultAddr = 0
  info : s.faultInfo = 0

theorem State.Inv.dataInv {s : State} (h : s.Inv) : s.DataInv := { h with }

theorem State.Inv.recordClear {s : State} (h : s.Inv) (hs : s.status ≠ .faulted) : s.RecordClear where
  cause := by
    by_contra hc
    exact hs (h.faultedIffCause.mpr hc)
  addr := (h.noFaultRecord hs).1
  info := (h.noFaultRecord hs).2

/-- A run is in progress in FETCH_OP (R67), so there has been no fault. -/
theorem State.Inv.recordClear_of_fetchOp {s : State} (h : s.Inv) (hf : s.fsm = .fetchOp) : s.RecordClear :=
  h.recordClear (by simp [h.coherent.mpr (by simp [hf])])

/-- The invariant of a boundary state without a fault. -/
theorem State.DataInv.inv_of_recordClear {s : State} (h : s.DataInv) (hr : s.RecordClear)
    (hb : s.fsm = .stopped ∨ s.fsm = .fetchOp) (hc : s.Coherent) (hs : s.status ≠ .faulted) : s.Inv :=
  { h with
    boundary := hb
    coherent := hc
    faultedIffCause := iff_of_false hs (not_not_intro hr.cause)
    noFaultRecord := fun _ => ⟨hr.addr, hr.info⟩
    faultAddrIsPc := fun hf => absurd hf hs }

/-- Taking a fault leads to the invariant (60_exceptions.md R112). -/
theorem State.DataInv.inv_raiseFault {s : State} {c : FaultCause} (n : Word16) (h : s.DataInv)
    (ho : s.opaddr.toNat ≤ 32768) (hc : c ≠ .noFault) : (raiseFault c n s).Inv :=
  { h with
    pcBound := ho
    boundary := .inl rfl
    coherent := iff_of_false nofun (· rfl)
    faultedIffCause := iff_of_true rfl hc
    noFaultRecord := fun hs => absurd rfl hs
    faultAddrIsPc := fun _ => rfl }

/-- A suspension without a fault leads to the invariant (R75). -/
theorem State.DataInv.inv_suspend {s : State} {r : Status} (h : s.DataInv) (hr : s.RecordClear)
    (hrun : r ≠ .running) (hf : r ≠ .faulted) : (suspend r s).Inv :=
  State.DataInv.inv_of_recordClear { h with } { hr with } (.inl rfl) (iff_of_false hrun (· rfl)) hf

/-- A run that goes on at the next instruction is in the invariant. -/
theorem State.DataInv.inv_fetchOp {s : State} (h : s.DataInv) (hr : s.RecordClear) (hs : s.status = .running) :
    State.Inv { s with fsm := .fetchOp } :=
  State.DataInv.inv_of_recordClear { h with } { hr with } (.inr rfl) (iff_of_true hs nofun)
    fun hf => nomatch hs.symm.trans hf

/-- The breakpoint check after a normal end leads to the invariant (R73). -/
theorem State.DataInv.inv_fsmCheck {s : State} (h : s.DataInv) (hr : s.RecordClear) (hs : s.status = .running) :
    (fsmCheck s).Inv := by
  by_cases hb : AtBreakpoint s
  · rw [fsmCheck_hit hb]
    exact h.inv_suspend hr nofun nofun
  · rw [fsmCheck_miss hb]
    exact h.inv_fetchOp hr hs

/-! ### Capacities -/

theorem fits_zero (capacity : Option Nat) : Fits capacity 0 := fun _ _ => Nat.zero_le _

theorem Fits.mono {capacity : Option Nat} {m n : Nat} (h : Fits capacity n) (hmn : m ≤ n) : Fits capacity m :=
  fun cap hc => hmn.trans (h cap hc)

/-- A push that finds room stays within the capacity (10_state.md R22). -/
theorem Fits.succ {capacity : Option Nat} {n : Nat} (h : Fits capacity n) (hr : capacity ≠ some n) :
    Fits capacity (n + 1) := by
  intro cap hc
  have hle := h cap hc
  have hne : cap ≠ n := fun e => hr (e ▸ hc)
  omega

/-! ### Decoding stays inside the address space -/

/-- An instruction read through an operand read found the operand's word. -/
theorem cellAt_of_withOperand_instr {cellAt : Nat → Option Word16} {p : Nat} {go : Operand → Decoded} {i : Instr}
    {len : Nat} (h : withOperand cellAt p go = .instr i len) :
    (∃ u, cellAt p = some u) ∧ ∃ x, go x = .instr i len := by
  rcases withOperand_cases cellAt p go with ⟨_, h'⟩ | ⟨u, _, _, h'⟩ | ⟨u, x, hu, _, _, _, h'⟩
  · rw [h'] at h; cases h
  · rw [h'] at h; cases h
  · exact ⟨⟨u, hu⟩, x, h' ▸ h⟩

/-- The last word of a decoded instruction is there. -/
theorem cellAt_last_of_decode {cellAt : Nat → Option Word16} {a : Nat} {i : Instr} {len : Nat}
    (h : decode cellAt a = .instr i len) : ∃ n u, len = n + 1 ∧ cellAt (a + n) = some u := by
  unfold decode at h
  split at h
  · cases h
  · rename_i w hw
    split at h
    · cases h
    · cases h
      exact ⟨0, w, rfl, hw⟩
    · obtain ⟨⟨u, hu⟩, _, hx⟩ := cellAt_of_withOperand_instr h
      cases hx
      exact ⟨1, u, rfl, hu⟩
    · obtain ⟨-, _, h⟩ := cellAt_of_withOperand_instr h
      obtain ⟨⟨u, hu⟩, _, hx⟩ := cellAt_of_withOperand_instr h
      cases hx
      exact ⟨2, u, rfl, hu⟩
    · obtain ⟨-, _, h⟩ := cellAt_of_withOperand_instr h
      obtain ⟨-, _, h⟩ := cellAt_of_withOperand_instr h
      obtain ⟨⟨u, hu⟩, _, hx⟩ := cellAt_of_withOperand_instr h
      cases hx
      exact ⟨3, u, rfl, hu⟩

/-- The post-fetch `pc` is at most 32768 (10_state.md R18). -/
theorem latchInstr_pc_toNat_le {s : State} {i : Instr} {len : Nat}
    (hd : decode s.mem.cellAt s.pc.toNat = .instr i len) : (latchInstr i len s).pc.toNat ≤ 32768 := by
  obtain ⟨n, u, rfl, hu⟩ := cellAt_last_of_decode hd
  have := Memory.lt_of_cellAt hu
  simp only [latchInstr_pc, BitVec.toNat_add, BitVec.toNat_ofNat]
  omega

/-! ### The execute step keeps the data half -/

/-- The memory address of an operand is inside the address space (46_memory_access.md). -/
theorem resolveAddr_lt (s : State) (x : Operand) : resolveAddr s x < memWords := (resolve s x).isLt

theorem resolveTarget_toNat_le (s : State) (x : Operand) : (resolveTarget s x).toNat ≤ 32768 := by
  rw [resolveTarget_toNat]
  exact (operandValue_lt s x).le

/-- What is left of the stack after its top entry is taken. -/
theorem State.DataInv.stack_tail {s : State} {v : Word16} {rest : List Word16} (h : s.DataInv)
    (hs : s.stack = v :: rest) : State.DataInv { s with stack := rest } :=
  { h with
    stackBound := fun w hw => h.stackBound w (hs ▸ List.mem_cons_of_mem v hw)
    stackFits := h.stackFits.mono (by simp [hs]) }

/-- A push of an entry of at most 32768 on a stack with room. -/
theorem State.DataInv.stack_cons {s : State} {v : Word16} (h : s.DataInv) (hv : v.toNat ≤ 32768)
    (hr : s.params.stackCapacity ≠ some s.stack.length) : State.DataInv { s with stack := v :: s.stack } :=
  { h with
    stackBound := List.forall_mem_cons.mpr ⟨hv, h.stackBound⟩
    stackFits := h.stackFits.succ hr }

/-- Every way an execute step ends keeps the data half of the invariant. -/
theorem ExecCase.dataInv {i : Instr} {s t : State} (hx : ExecCase i s t) (h : s.DataInv)
    (ho : s.opaddr.toNat ≤ 32768) : t.DataInv := by
  cases hx with
  | fault _ _ _ hn => exact (h.inv_raiseFault _ ho hn).dataInv
  | starved => exact { h with pcBound := ho }
  | popped _ _ _ _ hs => exact { h.stack_tail hs with }
  | dequeued _ _ _ _ hq => exact { h with inputFits := h.inputFits.mono (by simp [hq]) }
  | pushed x _ hr => exact { h.stack_cons (v := cellOfWord (resolve s x)) (resolveTarget_toNat_le s x) hr with }
  | called x _ hr => exact { h.stack_cons h.pcBound hr with pcBound := resolveTarget_toNat_le s x }
  | returned v _ _ hs => exact { h.stack_tail hs with pcBound := h.stackBound v (by simp [hs]) }
  | jumped x => exact { h with pcBound := resolveTarget_toNat_le s x }
  | stored x => exact { h with memory := Memory.write_wf _ _ _ h.memory (resolveAddr_lt s x) }
  | emitted => exact { h with outputRead := h.outputRead.trans (List.sublist_append_left _ _).length_le }
  | halt | write | nothing => exact { h with }

/-- An execute step that takes no fault leaves the fault record alone. -/
theorem ExecCase.recordClear {i : Instr} {s t : State} (hx : ExecCase i s t) (hr : s.RecordClear)
    (ht : t.status ≠ .faulted) : t.RecordClear := by
  cases hx with
  | fault => exact absurd rfl ht
  | _ => exact { hr with }

/-- An execute step that ends the run leads to the invariant. -/
theorem ExecCase.inv_of_stopped {i : Instr} {s t : State} (hx : ExecCase i s t) (h : s.DataInv) (hr : s.RecordClear)
    (ho : s.opaddr.toNat ≤ 32768) (hf : t.fsm = .stopped) : t.Inv := by
  cases hx with
  | fault _ _ _ hn => exact h.inv_raiseFault _ ho hn
  | halt => exact h.inv_suspend hr nofun nofun
  | starved => exact State.DataInv.inv_suspend { h with pcBound := ho } { hr with } nofun nofun
  | _ => cases hf

/-- Decode sets the latches, `pc` and the FSM, and keeps the data half. -/
theorem State.DataInv.latchInstr {s : State} {i : Instr} {len : Nat} (h : s.DataInv)
    (hd : decode s.mem.cellAt s.pc.toNat = .instr i len) : (latchInstr i len s).DataInv :=
  { h with pcBound := latchInstr_pc_toNat_le hd }

/-- Every case of a step in a run leads to the invariant. -/
theorem StepCase.inv {s t : State} (hx : StepCase s t) (h : s.Inv) (hf : s.fsm = .fetchOp) : t.Inv := by
  have hr := h.recordClear_of_fetchOp hf
  have hs : s.status = .running := h.coherent.mpr (by simp [hf])
  cases hx with
  | decodeFault _ info hc =>
    exact State.DataInv.inv_raiseFault (s := { s with opaddr := s.pc }) info { h with } h.pcBound hc
  | ended i len _ hd hx _ hstop => exact hx.inv_of_stopped (h.dataInv.latchInstr hd) { hr with } h.pcBound hstop
  | normal i len t hd hx _ _ hst =>
    have ht : t.status = .running := hst.trans hs
    exact (hx.dataInv (h.dataInv.latchInstr hd) h.pcBound).inv_fsmCheck
      (hx.recordClear { hr with } (by simp [ht])) ht

/-! ### The host keeps the invariant -/

/-- The state after RESET satisfies the invariant, whatever the parameters (10_state.md R33). -/
theorem reset_inv (p : Params) : State.Inv { State.reset with params := p } :=
  State.DataInv.inv_of_recordClear
    { memory := reset_memory_wf
      pcBound := Nat.zero_le _
      stackBound := nofun
      stackFits := fits_zero _
      inputFits := fits_zero _
      breakpointsFit := fits_zero _
      breakpointsSorted := .nil
      outputRead := Nat.zero_le _ }
    ⟨rfl, rfl, rfl⟩ (.inl rfl) (iff_of_false nofun (· rfl)) nofun

/-- What holds of both branches of a transaction's check holds of its answer's state. -/
theorem inv_ite {c : Prop} [Decidable c] {a b : HostReply × State} (ha : c → a.2.Inv) (hb : ¬ c → b.2.Inv) :
    (if c then a else b).2.Inv := by
  split
  · exact ha ‹_›
  · exact hb ‹_›

theorem hostRun_inv {s : State} (h : s.Inv) : (hostRun s).2.Inv := by
  refine inv_ite (fun ha => ?_) (fun _ => h)
  have hs : s.status ≠ .faulted := fun e => by simp [e, Status.acceptsRun] at ha
  exact State.DataInv.inv_fetchOp (s := { s with status := .running }) { h with } { h.recordClear hs with } rfl

theorem hostAddBreakpoint_inv {s : State} (a : Nat) (h : s.Inv) : (hostAddBreakpoint a s).2.Inv := by
  refine inv_ite (fun _ => h) fun _ => inv_ite (fun _ => h) fun _ => inv_ite (fun hfit => ?_) fun _ => h
  exact
    { h with
      breakpointsFit := ((withinCapacity_iff _ _).mp hfit).mono (breakpointInsert_length_le _ _)
      breakpointsSorted := breakpointInsert_sorted _ _ h.breakpointsSorted }

theorem hostAppendInput_inv {s : State} (codes : List Nat) (h : s.Inv) : (hostAppendInput codes s).2.Inv := by
  refine inv_ite (fun _ => h) fun _ => inv_ite (fun hfit => ?_) fun _ => h
  have hlen : (s.inq ++ codes.map (BitVec.ofNat 15)).length = s.inq.length + codes.length := by simp
  exact { h with inputFits := ((withinCapacity_iff _ _).mp hfit).mono hlen.le }

/-- Every transaction in a stopped CORE keeps the invariant (60_exceptions.md R121). -/
theorem hostOpStopped_inv {s : State} (op : HostOp) (h : s.Inv) : (hostOpStopped op s).2.Inv := by
  cases op with
  | reset => exact reset_inv s.params
  | loadImage bytes =>
    exact inv_ite (fun _ => h) fun _ => inv_ite (fun _ => h) fun _ =>
      { h with memory := Memory.storeCells_wf _ _ _ h.memory }
  | run => exact hostRun_inv h
  | getReg i => simp only [hostOpStopped, hostGetReg]; split <;> exact h
  | setReg i v =>
    simp only [hostOpStopped, hostSetReg]
    split
    · exact { h with }
    · exact h
  | getMem a => exact inv_ite (fun _ => h) fun _ => h
  | setMem a v => exact inv_ite (fun ha => { h with memory := Memory.write_wf _ _ _ h.memory ha.1 }) fun _ => h
  | addBreakpoint a => exact hostAddBreakpoint_inv a h
  | setOutput b => exact inv_ite (fun _ => { h with }) fun _ => h
  | appendInput codes => exact hostAppendInput_inv codes h
  | readOutput => exact { h with outputRead := Nat.le_refl _ }
  | getStatus | getPc | getMemView => exact h

/-! ### The obligations on the invariant and on register writes -/

/-- Settles O15: each case of a step in a run leads to the invariant, and a stopped CORE stays as it is. -/
theorem stepKeepsTheInvariant : Obligations.StepKeepsTheInvariant := by
  intro s h
  rcases h.boundary with hf | hf
  · exact ⟨s, step_stopped hf, h⟩
  · obtain ⟨t, ht, hx⟩ := step_case hf
    exact ⟨t, ht, hx.inv h hf⟩

/-- Settles O16: RESET leads to the reset state, and every other transaction is refused or made in a stopped CORE. -/
theorem hostKeepsTheInvariant : Obligations.HostKeepsTheInvariant := by
  intro s op h
  exact inv_ite (fun _ => reset_inv s.params) fun _ => inv_ite (fun _ => hostOpStopped_inv op h) fun _ => h

/-- Settles O14. -/
theorem resetSatisfiesTheInvariant : Obligations.ResetSatisfiesTheInvariant := reset_inv

/-- Settles O19: the three ways an execute step writes a register name it as the destination. -/
theorem onlyTheDestinationRegisterIsWritten : Obligations.OnlyTheDestinationRegisterIsWritten := by
  intro i s t j h hj
  cases exec_case_of_next h with
  | write d v hd => exact State.reg_setReg_other s v fun e => hj (e ▸ hd)
  | popped d v rest hi => subst hi; exact State.reg_setReg_other _ _ fun e => hj (e ▸ rfl)
  | dequeued d v rest hi => subst hi; exact State.reg_setReg_other _ _ fun e => hj (e ▸ rfl)
  | _ => rfl

/-! ### Every step ends at an instruction boundary -/

theorem fsmCheck_atBoundary (s : State) : (fsmCheck s).atBoundary = true := by
  unfold fsmCheck
  split <;> rfl

theorem StepCase.atBoundary {s t : State} (hx : StepCase s t) : t.atBoundary = true := by
  cases hx with
  | decodeFault => rfl
  | ended _ _ _ _ _ _ hf => simp [State.atBoundary, hf]
  | normal => exact fsmCheck_atBoundary _

/-- The two instruction boundaries (00_scope.md R11). -/
theorem State.fsm_of_atBoundary {s : State} (h : s.atBoundary = true) : s.fsm = .stopped ∨ s.fsm = .fetchOp := by
  simpa [State.atBoundary] using h

/-- A step from a boundary answers a next state, at a boundary. -/
theorem step_next_atBoundary {s : State} (hs : s.atBoundary = true) :
    ∃ t, step s = .next t ∧ t.atBoundary = true := by
  rcases State.fsm_of_atBoundary hs with hf | hf
  · exact ⟨s, step_stopped hf, hs⟩
  · obtain ⟨t, ht, hx⟩ := step_case hf
    exact ⟨t, ht, hx.atBoundary⟩

/-! ### The output decides nothing else: from the execute step to the step (10_state.md R28) -/

/-- What follows the execute step keeps the relation: the breakpoint check does not touch the output. -/
theorem OutputAdded.afterExecute {s : State} {b : Bool} {log : List Word15} {r r' : Result}
    (h : OutputAdded s b log r r') : OutputAdded s b log (afterExecute r) (afterExecute r') := by
  obtain ⟨t, out, rfl, he, hl, rfl⟩ := h
  by_cases hf : t.fsm = .check
  · have hframe := onlyChanges_fsmCheck t
    refine ⟨fsmCheck t, out, afterExecute_normal hf, (hframe .outEn (by decide)).trans he,
      (hframe .outlog (by decide)).trans hl, ?_⟩
    rw [afterExecute_normal (t := t.withOutput b _) hf, fsmCheck_withOutput]
  · exact ⟨t, out, afterExecute_ended hf, he, hl, afterExecute_ended (t := t.withOutput b _) hf⟩

/-- Of every step from a boundary: only the output depends on OUT_EN and on what was emitted before. -/
theorem step_outputAdded {s : State} (b : Bool) (log : List Word15) (hs : s.atBoundary = true) :
    OutputAdded s b log (step s) (step (s.withOutput b log)) := by
  rcases State.fsm_of_atBoundary hs with hf | hf
  · exact .nothing (step_stopped hf) rfl rfl (step_stopped (s := s.withOutput b log) hf)
  · rw [step_fetch hf, step_fetch (s := s.withOutput b log) hf, instructionCycle, instructionCycle]
    cases decode s.mem.cellAt s.pc.toNat with
    | fetchFault | unrecognized | invalidOperand => exact .nothing rfl rfl rfl rfl
    | instr i len => exact (exec_outputAdded i (latchInstr i len s) b log).afterExecute

/-! ### Forgetting the latches -/

/-- A function on states carried to the answer of a step. -/
def mapNext (f : State → State) : Result → Result
  | .next s => .next (f s)
  | .fault r => .fault r
  | .refused r => .refused r

/-- `s` with other operand latches. -/
def State.withOpnd (v : Vector Operand 3) (s : State) : State := { s with opnd := v }

/-- Two next states, the second the image of the first. -/
theorem eq_mapNext_of_next {f : State → State} {r r' : Result} {t : State} (h : r = .next t) (h' : r' = .next (f t)) :
    r' = mapNext f r := by
  rw [h, h', mapNext]

/-- A function passes into both branches of a check that it does not change. -/
theorem ite_eq_map {α β : Type} {c : Prop} [Decidable c] {f : α → β} {a b : α} {a' b' : β} (ha : a' = f a)
    (hb : b' = f b) : (if c then a' else b') = f (if c then a else b) := by
  rw [ha, hb, apply_ite f]

theorem withDestination_eq_mapNext {f : State → State} {dst : Operand} {s s' : State} {go go' : RegIdx → Result}
    (hfault : ∀ n, raiseFault .invalidDestination n s' = f (raiseFault .invalidDestination n s))
    (hgo : ∀ d, go' d = mapNext f (go d)) : withDestination dst s' go' = mapNext f (withDestination dst s go) := by
  cases dst with
  | lit v => exact congrArg Host.Outcome.next (hfault _)
  | reg d => exact hgo d

/-- The execute step neither reads nor writes the operand latches: the instruction brings its operands (R71). -/
theorem exec_withOpnd (i : Instr) (s : State) (v : Vector Operand 3) :
    exec i (s.withOpnd v) = mapNext (State.withOpnd v) (exec i s) := by
  cases i with
  | halt | noOp | jump | memoryWrite => rfl
  | jumpIfTrue | jumpIfFalse | push | functionCall => exact ite_eq_map rfl rfl
  | setRegister | compareEquals | compareGreaterThan | add | multiply | bitwiseAnd | bitwiseOr | bitwiseNot =>
    exact withDestination_eq_mapNext (fun _ => rfl) fun _ => rfl
  | mod | memoryRead =>
    exact withDestination_eq_mapNext (fun _ => rfl) fun _ => ite_eq_map rfl rfl
  | pop dst =>
    cases dst with
    | lit w => rfl
    | reg d =>
      cases hs : s.stack with
      | nil => exact eq_mapNext_of_next (exec_pop_empty d hs) (exec_pop_empty (s := s.withOpnd v) d hs)
      | cons w rest =>
        rw [exec_pop_top d hs]
        refine (exec_pop_top (s := s.withOpnd v) d hs).trans ?_
        exact ite_eq_map rfl rfl
  | functionReturn =>
    cases hs : s.stack with
    | nil => exact eq_mapNext_of_next (exec_functionReturn_empty hs) (exec_functionReturn_empty (s := s.withOpnd v) hs)
    | cons w rest =>
      exact eq_mapNext_of_next (exec_functionReturn_cons hs) (exec_functionReturn_cons (s := s.withOpnd v) hs)
  | printChar x =>
    cases he : s.outEn with
    | true => exact eq_mapNext_of_next (exec_printChar_enabled x he) (exec_printChar_enabled (s := s.withOpnd v) x he)
    | false =>
      exact eq_mapNext_of_next (exec_printChar_disabled x he) (exec_printChar_disabled (s := s.withOpnd v) x he)
  | readChar dst =>
    cases dst with
    | lit w => rfl
    | reg d =>
      cases hq : s.inq with
      | nil => exact eq_mapNext_of_next (exec_readChar_empty d hq) (exec_readChar_empty (s := s.withOpnd v) d hq)
      | cons w rest => exact eq_mapNext_of_next (exec_readChar_cons d hq) (exec_readChar_cons (s := s.withOpnd v) d hq)

theorem fsmCheck_withOpnd (s : State) (v : Vector Operand 3) :
    fsmCheck (s.withOpnd v) = (fsmCheck s).withOpnd v :=
  ite_eq_map (f := State.withOpnd v) rfl rfl

/-- Nor does what follows the execute step (R73, R76). -/
theorem afterExecute_withOpnd (r : Result) (v : Vector Operand 3) :
    afterExecute (mapNext (State.withOpnd v) r) = mapNext (State.withOpnd v) (afterExecute r) := by
  cases r with
  | next t => exact ite_eq_map (congrArg Host.Outcome.next (fsmCheck_withOpnd t v)) rfl
  | fault | refused => rfl

@[simp] theorem forgetLatches_mem (s : State) : s.forgetLatches.mem = s.mem := rfl
@[simp] theorem forgetLatches_pc (s : State) : s.forgetLatches.pc = s.pc := rfl

/-- Operand latches are forgotten too. -/
theorem mapNext_forgetLatches_withOpnd (r : Result) (v : Vector Operand 3) :
    mapNext State.forgetLatches (mapNext (State.withOpnd v) r) = mapNext State.forgetLatches r := by
  cases r <;> rfl

/-- A step from a boundary reads no latch: forgetting them before it changes nothing but latches after it. -/
theorem step_forgetLatches {s : State} (hs : s.atBoundary = true) :
    mapNext State.forgetLatches (step s.forgetLatches) = mapNext State.forgetLatches (step s) := by
  rcases State.fsm_of_atBoundary hs with hf | hf
  · rw [step_stopped hf, step_stopped (s := s.forgetLatches) hf]
    rfl
  · rw [step_fetch hf, step_fetch (s := s.forgetLatches) hf, instructionCycle, instructionCycle,
      forgetLatches_mem, forgetLatches_pc]
    cases decode s.mem.cellAt s.pc.toNat with
    | fetchFault | unrecognized | invalidOperand => rfl
    | instr i len =>
      have hlatch : latchInstr i len s.forgetLatches =
          (latchInstr i len s).withOpnd (latchInstr i len s.forgetLatches).opnd := rfl
      simp only
      rw [hlatch, exec_withOpnd, afterExecute_withOpnd, mapNext_forgetLatches_withOpnd]

/-- No transaction reads or writes a latch. -/
theorem hostOp_forgetLatches (op : HostOp) (s : State) :
    hostOp op s.forgetLatches = Prod.map id State.forgetLatches (hostOp op s) := by
  refine ite_eq_map rfl (ite_eq_map ?_ rfl)
  cases op with
  | reset | getStatus | getPc | getMemView | readOutput => rfl
  | run | getMem | setMem | setOutput => exact ite_eq_map rfl rfl
  | loadImage | appendInput => exact ite_eq_map rfl (ite_eq_map rfl rfl)
  | addBreakpoint => exact ite_eq_map rfl (ite_eq_map rfl (ite_eq_map rfl rfl))
  | getReg i => simp only [hostOpStopped, hostGetReg]; split <;> rfl
  | setReg i v => simp only [hostOpStopped, hostSetReg]; split <;> rfl

/-! ### The obligations on hidden state and on the output -/

/-- Settles O13: forgetting the latches beforehand makes the two states one, and leaves every answer as it was. -/
theorem latchesAreNotObservable : Obligations.LatchesAreNotObservable := by
  intro s s' hs h
  have hs' : s'.atBoundary = true := by
    have hf : s'.forgetLatches.atBoundary = s.forgetLatches.atBoundary := by rw [h]
    exact hf.trans hs
  obtain ⟨t, ht, -⟩ := step_next_atBoundary hs
  obtain ⟨t', ht', -⟩ := step_next_atBoundary hs'
  have hstep : mapNext State.forgetLatches (step s') = mapNext State.forgetLatches (step s) := by
    rw [← step_forgetLatches hs', h, step_forgetLatches hs]
  rw [ht, ht'] at hstep
  refine ⟨⟨t, t', ht, ht', Host.Outcome.next.inj hstep⟩, fun op => ?_⟩
  have hop : Prod.map id State.forgetLatches (hostOp op s') = Prod.map id State.forgetLatches (hostOp op s) := by
    rw [← hostOp_forgetLatches, h, hostOp_forgetLatches]
  exact Prod.ext_iff.mp hop

/-- Settles O25: the step adds to the output what its execute step adds, and ends at a boundary. -/
theorem outputEnableOnlyAffectsTheOutput : Obligations.OutputEnableOnlyAffectsTheOutput := by
  intro s b log hs
  obtain ⟨t, out, ht, he, hl, ht'⟩ := step_outputAdded b log hs
  obtain ⟨u, hu, hb⟩ := step_next_atBoundary hs
  obtain rfl : u = t := Host.Outcome.next.inj (hu.symm.trans ht)
  exact ⟨u, out, ht, hb, he, hl, ht'⟩

end Sys2Proof.Machine

/-! ## The memory's statements: the port, and what a fetch sees after a step (20_memory.md) -/

namespace Sys2Proof.Machine

/-- Settles O41: the port's read-after-write, its frame, and the canonical form. -/
theorem memoryPortReadsTheLatestWrite : Obligations.MemoryPortReadsTheLatestWrite :=
  fun m a v => ⟨m.read_write_same a v, fun _ hb => m.read_write_other v hb, m.write_wf a v⟩

/-! ### A fetch after a write to the port -/

theorem Memory.cellAt_write_same (m : Memory) {a : Nat} (v : Word16) (ha : a < memWords) :
    (m.write a v).cellAt a = some v := by
  rw [Memory.cellAt_of_lt _ ha, Memory.read_write_same]

theorem Memory.cellAt_write_other (m : Memory) {a b : Nat} (v : Word16) (h : b ≠ a) :
    (m.write a v).cellAt b = m.cellAt b := by
  simp only [Memory.cellAt, Memory.read_write_other m v h]

/-! ### What a step does to memory -/

/-- The end of decode leaves every operand's value as it was. -/
@[simp] theorem resolve_latchInstr (i : Instr) (len : Nat) (s : State) (x : Operand) :
    resolve (latchInstr i len s) x = resolve s x := by
  cases x <;> rfl

@[simp] theorem fsmCheck_pc (s : State) : (fsmCheck s).pc = s.pc :=
  onlyChanges_fsmCheck s .pc (by decide)

/-- An instruction that a row of the opcode map makes has as many operands as the row says (30_encoding.md R52). -/
theorem operands_length_of_opcodeFormat {w : Word16} {f : Format} (h : opcodeFormat w = some f) (x y z : Operand) :
    (f.build x y z).operands.length = f.arity := by
  rw [(opcodeFormat_build h x y z).2, List.length_take]
  exact min_eq_left f.arity_le

/-- A decoded instruction is one word longer than it has operands (30_encoding.md R52). -/
theorem length_of_decode {cellAt : Nat → Option Word16} {a : Nat} {i : Instr} {len : Nat}
    (h : decode cellAt a = .instr i len) : len = i.operands.length + 1 := by
  unfold decode at h
  split at h
  · cases h
  · split at h
    · cases h
    · rename_i hf
      cases h
      exact congrArg (· + 1) (operands_length_of_opcodeFormat hf (.lit 0) (.lit 0) (.lit 0)).symm
    · rename_i hf
      obtain ⟨-, x, h⟩ := cellAt_of_withOperand_instr h
      cases h
      exact congrArg (· + 1) (operands_length_of_opcodeFormat hf x (.lit 0) (.lit 0)).symm
    · rename_i hf
      obtain ⟨-, x, h⟩ := cellAt_of_withOperand_instr h
      obtain ⟨-, y, h⟩ := cellAt_of_withOperand_instr h
      cases h
      exact congrArg (· + 1) (operands_length_of_opcodeFormat hf x y (.lit 0)).symm
    · rename_i hf
      obtain ⟨-, x, h⟩ := cellAt_of_withOperand_instr h
      obtain ⟨-, y, h⟩ := cellAt_of_withOperand_instr h
      obtain ⟨-, z, h⟩ := cellAt_of_withOperand_instr h
      cases h
      exact congrArg (· + 1) (operands_length_of_opcodeFormat hf x y z).symm

/-- What an execute step does to memory: nothing, or the one write of a MemoryWrite (46_memory_access.md R104). -/
theorem ExecCase.mem_cases {i : Instr} {s t : State} (hx : ExecCase i s t) :
    t.mem = s.mem ∨ ∃ x v, i = .memoryWrite x v ∧
      t.mem = s.mem.write (resolveAddr s x) (cellOfWord (resolve s v)) := by
  cases hx with
  | stored x v hi => exact .inr ⟨x, v, hi, rfl⟩
  | _ => exact .inl rfl

/-- What the instruction at `pc` does to memory: nothing, or the one write of a MemoryWrite, with both operands resolved
in the state before. -/
theorem ExecCase.mem_cases_of_decode {i : Instr} {len : Nat} {s t : State}
    (hd : decode s.mem.cellAt s.pc.toNat = .instr i len) (hx : ExecCase i (latchInstr i len s) t) :
    t.mem = s.mem ∨ ∃ x v, decode s.mem.cellAt s.pc.toNat = .instr (.memoryWrite x v) 3 ∧
      t.mem = s.mem.write (resolveAddr s x) (cellOfWord (resolve s v)) := by
  rcases hx.mem_cases with hm | ⟨x, v, rfl, hm⟩
  · exact .inl hm
  · obtain rfl := length_of_decode hd
    exact .inr ⟨x, v, hd, by simpa [resolveAddr] using hm⟩

/-- What a step in a run does to memory: nothing, or the one write of the MemoryWrite at `pc`. -/
theorem StepCase.mem_cases {s t : State} (hx : StepCase s t) :
    t.mem = s.mem ∨ ∃ x v, decode s.mem.cellAt s.pc.toNat = .instr (.memoryWrite x v) 3 ∧
      t.mem = s.mem.write (resolveAddr s x) (cellOfWord (resolve s v)) := by
  cases hx with
  | decodeFault => exact .inl rfl
  | ended i len t hd hx => exact hx.mem_cases_of_decode hd
  | normal i len t hd hx => rw [fsmCheck_mem]; exact hx.mem_cases_of_decode hd

/-- A step on a MemoryWrite: the post-fetch `pc` and the write, whether or not a breakpoint ends the run. -/
theorem step_memoryWrite {s : State} {x v : Operand} {len : Nat} (hf : s.fsm = .fetchOp)
    (hd : decode s.mem.cellAt s.pc.toNat = .instr (.memoryWrite x v) len) :
    ∃ t, step s = .next t ∧ t.pc = s.pc + BitVec.ofNat 16 len ∧
      t.mem = s.mem.write (resolveAddr s x) (cellOfWord (resolve s v)) := by
  refine ⟨_, (step_instr hf hd).trans (afterExecute_normal rfl), fsmCheck_pc _, ?_⟩
  simp [resolveAddr]

/-- Settles O57: a MemoryWrite's step makes its one write, which the fetch's view of memory shows, and a step that
changes the fetch's view made such a write to that cell. -/
theorem fetchSeesAMemoryWriteAtOnce : Obligations.FetchSeesAMemoryWriteAtOnce := by
  constructor
  · intro s addr val hf hd
    obtain ⟨t, ht, hpc, hmem⟩ := step_memoryWrite hf hd
    refine ⟨t, ht, hpc, ?_⟩
    rintro a rfl
    rw [hmem]
    exact ⟨⟨_, Memory.cellAt_write_same _ _ (resolveAddr_lt s addr), by simp⟩,
      fun _ hb => Memory.cellAt_write_other _ _ hb⟩
  · intro s t a hf ht hne
    rcases (step_case_of_next hf ht).mem_cases with hmem | ⟨addr, val, hd, hmem⟩
    · exact absurd (by rw [hmem]) hne
    · refine ⟨addr, val, hd, ?_⟩
      by_contra ha
      exact hne (by rw [hmem, Memory.cellAt_write_other _ _ (Ne.symm ha)])

end Sys2Proof.Machine

/-! ## The encoding's statements: what decode reads, word by word (30_encoding.md) -/

namespace Sys2Proof

/-! ### Words in place -/

/-- The words `ws` stand in memory from `a` on. -/
def WordsAt (cellAt : Nat → Option Word16) (a : Nat) (ws : List Word16) : Prop :=
  ∀ j w, ws[j]? = some w → cellAt (a + j) = some w

@[simp] theorem wordsAt_nil (cellAt : Nat → Option Word16) (a : Nat) : WordsAt cellAt a [] := nofun

@[simp] theorem wordsAt_cons (cellAt : Nat → Option Word16) (a : Nat) (w : Word16) (ws : List Word16) :
    WordsAt cellAt a (w :: ws) ↔ cellAt a = some w ∧ WordsAt cellAt (a + 1) ws := by
  constructor
  · intro h
    refine ⟨h 0 w rfl, fun j v hv => ?_⟩
    rw [Nat.add_assoc, Nat.add_comm 1]
    exact h (j + 1) v hv
  · rintro ⟨hw, hws⟩ j v hv
    cases j with
    | zero => cases hv; exact hw
    | succ j =>
      rw [Nat.add_comm j, ← Nat.add_assoc]
      exact hws j v hv

/-- An instruction that a row of the opcode map makes is encoded as the row's opcode word and its operands' words. -/
theorem encode_build {w : Word16} {f : Format} (h : opcodeFormat w = some f) (x y z : Operand) :
    encode (f.build x y z) = w :: ([x, y, z].take f.arity).map encodeOperand := by
  obtain ⟨hop, hxs⟩ := opcodeFormat_build h x y z
  rw [encode, hop, hxs]

@[simp] theorem length_encode (i : Instr) : (encode i).length = i.operands.length + 1 := by
  simp [encode]

/-! ### From words to the instruction -/

/-- An opcode word and the operand words its row asks for decode to the instruction the row makes. -/
theorem decode_of_wordsAt {cellAt : Nat → Option Word16} {a : Nat} {w : Word16} {f : Format} {x y z : Operand}
    (hf : opcodeFormat w = some f)
    (h : WordsAt cellAt a (w :: ([x, y, z].take f.arity).map encodeOperand)) :
    decode cellAt a = .instr (f.build x y z) (f.arity + 1) := by
  obtain ⟨hw, h⟩ := (wordsAt_cons ..).mp h
  cases f with
  | f0 i => simp [decode, hw, hf, Format.build, Format.arity]
  | f1 mk =>
    obtain ⟨hx, -⟩ := (wordsAt_cons ..).mp h
    simp [decode, hw, hf, Format.build, Format.arity, withOperand_encoded hx]
  | f2 mk =>
    obtain ⟨hx, h⟩ := (wordsAt_cons ..).mp h
    obtain ⟨hy, -⟩ := (wordsAt_cons ..).mp h
    simp [decode, hw, hf, Format.build, Format.arity, withOperand_encoded hx, withOperand_encoded hy]
  | f3 mk =>
    obtain ⟨hx, h⟩ := (wordsAt_cons ..).mp h
    obtain ⟨hy, h⟩ := (wordsAt_cons ..).mp h
    obtain ⟨hz, -⟩ := (wordsAt_cons ..).mp h
    simp [decode, hw, hf, Format.build, Format.arity, withOperand_encoded hx, withOperand_encoded hy,
      withOperand_encoded hz]

/-- Decode reads back every encoding (R63). -/
theorem decode_of_wordsAt_encode {cellAt : Nat → Option Word16} {a : Nat} {i : Instr}
    (h : WordsAt cellAt a (encode i)) : decode cellAt a = .instr i (encode i).length := by
  obtain ⟨f, x, y, z, hf, rfl, -⟩ := opcodeFormat_opcode i
  rw [encode_build hf] at h
  rw [decode_of_wordsAt hf h, length_encode, Machine.operands_length_of_opcodeFormat hf]

theorem decode_cellsOf_encode (i : Instr) : decode (cellsOf (encode i)) 0 = .instr i (encode i).length :=
  decode_of_wordsAt_encode fun j w h => by rwa [Nat.zero_add]

/-! ### From what decode answers to the words -/

/-- Decode at `a` has read every word before `p`: an opcode first, then operand words (R63). -/
structure ReadUpTo (cellAt : Nat → Option Word16) (a p : Nat) : Prop where
  opcode : ∃ w, cellAt a = some w ∧ w.toNat ≤ 21
  after : a < p
  operands : ∀ q, a < q → q < p → ∃ u, cellAt q = some u ∧ u.toNat ≤ 32775

theorem ReadUpTo.succ {cellAt : Nat → Option Word16} {a p : Nat} {u : Word16} (h : ReadUpTo cellAt a p)
    (hu : cellAt p = some u) (hle : u.toNat ≤ 32775) : ReadUpTo cellAt a (p + 1) where
  opcode := h.opcode
  after := Nat.lt_succ_of_lt h.after
  operands q haq hqp := by
    rcases Nat.lt_succ_iff_lt_or_eq.mp hqp with hlt | rfl
    · exact h.operands q haq hlt
    · exact ⟨u, hu, hle⟩

/-- A row of the opcode map belongs to an opcode word of 0..21 (R61). -/
theorem toNat_le_of_opcodeFormat {w : Word16} {f : Format} (h : opcodeFormat w = some f) : w.toNat ≤ 21 := by
  by_contra hlt
  rw [(opcodeFormat_eq_none_iff w).mpr (by omega)] at h
  cases h

/-- Once the opcode word is known, decode has read up to the first operand word. -/
theorem ReadUpTo.of_opcode {cellAt : Nat → Option Word16} {a : Nat} {w : Word16} {f : Format}
    (hw : cellAt a = some w) (hf : opcodeFormat w = some f) : ReadUpTo cellAt a (a + 1) where
  opcode := ⟨w, hw, toNat_le_of_opcodeFormat hf⟩
  after := Nat.lt_succ_self a
  operands q haq hqp := by omega

/-- Everything decode at `a` can answer, with the words it has found in memory (R63). -/
inductive DecodeCase (cellAt : Nat → Option Word16) (a : Nat) : Decoded → Prop where
  /-- there is no opcode word -/
  | noOpcode (hp : cellAt a = none) : DecodeCase cellAt a (.fetchFault a)
  /-- the opcode word is outside 0..21 (R61) -/
  | unrecognized (w : Word16) (hw : cellAt a = some w) (h : 22 ≤ w.toNat) : DecodeCase cellAt a (.unrecognized w 1)
  /-- an operand word is missing -/
  | noOperand (p : Nat) (hr : ReadUpTo cellAt a p) (hle : p ≤ a + 3) (hp : cellAt p = none) :
      DecodeCase cellAt a (.fetchFault p)
  /-- an operand word is above 32775 (R56) -/
  | badOperand (p : Nat) (u : Word16) (hr : ReadUpTo cellAt a p) (hle : p ≤ a + 3) (hp : cellAt p = some u)
      (hu : 32776 ≤ u.toNat) : DecodeCase cellAt a (.invalidOperand u p)
  /-- all words are there -/
  | instr (i : Instr) (hi : WordsAt cellAt a (encode i)) : DecodeCase cellAt a (.instr i (encode i).length)

/-- The read of the operand word at `p`: it fails there, or the rest of decode goes on from the next word. -/
theorem DecodeCase.withOperand {cellAt : Nat → Option Word16} {a p : Nat} {go : Operand → Decoded}
    (hr : ReadUpTo cellAt a p) (hle : p ≤ a + 3)
    (hgo : ∀ x, cellAt p = some (encodeOperand x) → ReadUpTo cellAt a (p + 1) → DecodeCase cellAt a (go x)) :
    DecodeCase cellAt a (withOperand cellAt p go) := by
  rcases withOperand_cases cellAt p go with ⟨hp, h⟩ | ⟨u, hp, hu, h⟩ | ⟨u, x, hp, hu, rfl, -, h⟩
  · exact h ▸ .noOperand p hr hle hp
  · exact h ▸ .badOperand p u hr hle hp hu
  · exact h ▸ hgo x hp (hr.succ hp hu)

/-- The end of decode: the words of the row's instruction have all been found. -/
theorem DecodeCase.of_wordsAt {cellAt : Nat → Option Word16} {a : Nat} {w : Word16} {f : Format}
    (hf : opcodeFormat w = some f) (x y z : Operand)
    (h : WordsAt cellAt a (w :: ([x, y, z].take f.arity).map encodeOperand)) :
    DecodeCase cellAt a (.instr (f.build x y z) (f.arity + 1)) := by
  rw [← encode_build hf] at h
  have hlen : (encode (f.build x y z)).length = f.arity + 1 := by
    rw [length_encode, Machine.operands_length_of_opcodeFormat hf]
  exact hlen ▸ .instr _ h

/-- The inversion lemma of decode. -/
theorem decode_case (cellAt : Nat → Option Word16) (a : Nat) : DecodeCase cellAt a (decode cellAt a) := by
  unfold decode
  split
  · exact .noOpcode ‹_›
  · rename_i w hw
    split
    · exact .unrecognized w hw ((opcodeFormat_eq_none_iff w).mp ‹_›)
    · rename_i i hf
      exact .of_wordsAt hf (.lit 0) (.lit 0) (.lit 0) (by simp [Format.arity, hw])
    · rename_i mk hf
      refine .withOperand (.of_opcode hw hf) (by omega) fun x hx _ => ?_
      exact .of_wordsAt hf x (.lit 0) (.lit 0) (by simp [Format.arity, hw, hx])
    · rename_i mk hf
      refine .withOperand (.of_opcode hw hf) (by omega) fun x hx hr => ?_
      refine .withOperand hr (by omega) fun y hy _ => ?_
      exact .of_wordsAt hf x y (.lit 0) (by simp [Format.arity, hw, hx, hy])
    · rename_i mk hf
      refine .withOperand (.of_opcode hw hf) (by omega) fun x hx hr => ?_
      refine .withOperand hr (by omega) fun y hy hr => ?_
      refine .withOperand hr (by omega) fun z hz _ => ?_
      exact .of_wordsAt hf x y z (by simp [Format.arity, hw, hx, hy, hz])

/-- The case of a given answer. -/
theorem decode_case_of_eq {cellAt : Nat → Option Word16} {a : Nat} {d : Decoded} (h : decode cellAt a = d) :
    DecodeCase cellAt a d :=
  h ▸ decode_case cellAt a

/-- An opcode word of 22 or more decodes to the sentinel (R61). -/
theorem decode_unrecognized {cellAt : Nat → Option Word16} {a : Nat} {w : Word16} (hw : cellAt a = some w)
    (h : 22 ≤ w.toNat) : decode cellAt a = .unrecognized w 1 := by
  simp [decode, hw, (opcodeFormat_eq_none_iff w).mpr h]

/-- The sentinel comes from an opcode word of 22 or more only. -/
theorem opcode_of_decode_unrecognized {cellAt : Nat → Option Word16} {a len : Nat} {w : Word16}
    (h : decode cellAt a = .unrecognized w len) : cellAt a = some w ∧ 22 ≤ w.toNat := by
  cases decode_case_of_eq h with
  | unrecognized _ hw hle => exact ⟨hw, hle⟩

end Sys2Proof

namespace Sys2Proof.Machine

/-! ### The obligations on encoding and decoding -/

/-- Settles O1: the opcode word selects the instruction's row, and each operand word is read as its operand. -/
theorem decodeReadsBackEveryEncoding : Obligations.DecodeReadsBackEveryEncoding :=
  fun _ _ _ h => decode_of_wordsAt_encode h

/-- Settles O2: of the cases of decode, the one that answers an instruction has found its words. -/
theorem decodedInstructionStandsInMemory : Obligations.DecodedInstructionStandsInMemory := by
  intro cellAt a i len h
  cases decode_case_of_eq h with
  | instr _ hi => exact ⟨rfl, hi⟩

/-- Settles O5: the sentinel's case of decode, both ways, and the fault of the step it leads to. -/
theorem unrecognizedOpcodeFaults : Obligations.UnrecognizedOpcodeFaults := by
  intro s hf hpc
  have hcell : s.mem.cellAt s.pc.toNat = some (s.mem.read s.pc.toNat) := Memory.cellAt_of_lt _ hpc
  refine ⟨fun hle => ?_, fun hle w len hd => ?_⟩
  · have hd := decode_unrecognized hcell hle
    exact ⟨hd, .of_cycle hf (by rw [instructionCycle, hd]) rfl⟩
  · obtain ⟨hw, hge⟩ := opcode_of_decode_unrecognized hd
    obtain rfl := Option.some.inj (hcell.symm.trans hw)
    omega

/-- Settles O6: each failing case of decode has read every word before the one it reports. -/
theorem decodeStopsAtTheFirstFailingWord : Obligations.DecodeStopsAtTheFirstFailingWord := by
  intro cellAt a p
  constructor
  · intro h
    cases decode_case_of_eq h with
    | noOpcode hp =>
      exact ⟨hp, Nat.le_refl a, Nat.le_add_right a 3, fun h => absurd h (Nat.lt_irrefl a), fun q _ _ => by omega⟩
    | noOperand _ hr hle hp => exact ⟨hp, hr.after.le, hle, fun _ => hr.opcode, hr.operands⟩
  · intro u h
    cases decode_case_of_eq h with
    | badOperand _ _ hr hle hp hu => exact ⟨hp, hu, hr.after, hle, hr.opcode, hr.operands⟩

/-- Settles O3: each word sequence is the encoding of its instruction. -/
theorem specWordsDecode : Obligations.SpecWordsDecode :=
  ⟨decode_cellsOf_encode .halt,
   decode_cellsOf_encode (.setRegister (.reg 0) (.lit 7)),
   decode_cellsOf_encode (.pop (.reg 2)),
   decode_cellsOf_encode (.compareGreaterThan (.reg 6) (.reg 0) (.reg 2)),
   decode_cellsOf_encode (.jumpIfTrue (.reg 0) (.lit 6)),
   decode_cellsOf_encode (.functionCall (.reg 1)),
   decode_cellsOf_encode (.mod (.reg 2) (.reg 1) (.lit 1000)),
   decode_cellsOf_encode (.bitwiseNot (.reg 3) (.reg 2)),
   decode_cellsOf_encode (.memoryWrite (.lit 100) (.reg 2)),
   decode_cellsOf_encode (.readChar (.reg 2))⟩

/-- Settles O4: the three ranges of an operand word, and the value of a resolved operand. -/
theorem operandWordsAndTheirValues : Obligations.OperandWordsAndTheirValues :=
  ⟨fun u =>
    ⟨fun h => ⟨_, decodeOperand_literal h, wordOfCell_toNat_of_le (Nat.le_of_lt_succ h)⟩,
     fun h₁ h₂ => ⟨_, decodeOperand_register h₁ (by omega), rfl⟩,
     (decodeOperand_eq_none_iff u).mpr⟩,
   fun s x => ⟨resolve_toNat s x, operandValue_lt s x⟩⟩

end Sys2Proof.Machine

/-! ## The instruction cycle's statements: the FSM, the whole step, and what each step may change
(40_fetch_decode_execute.md) -/

namespace Sys2Proof.Machine

/-! ### The whole step, as a function of what decode answers -/

/-- What R76 does with the answer of decode. -/
def afterDecode (s : State) : Decoded → Result
  | .fetchFault p => finishFault .fetchOutOfRange (BitVec.ofNat 16 p) { s with opaddr := s.pc }
  | .unrecognized w _ => finishFault .unrecognizedOpcode w { s with opaddr := s.pc }
  | .invalidOperand u _ => finishFault .invalidOperand u { s with opaddr := s.pc }
  | .instr i len => afterExecute (exec i (latchInstr i len s))

theorem step_eq_afterDecode {s : State} (hf : s.fsm = .fetchOp) :
    step s = afterDecode s (decode s.mem.cellAt s.pc.toNat) := by
  rw [step_fetch hf, instructionCycle]
  cases decode s.mem.cellAt s.pc.toNat <;> rfl

/-! ### The FSM inside a fetch -/

/-- Two answers that differ in latches only (10_state.md R32). -/
def SameUpToLatches (r r' : Result) : Prop := mapNext State.forgetLatches r = mapNext State.forgetLatches r'

/-- The state of the FSM when it has fetched the opcode word `w`, of format `f`, and the operands `xs` of the
instruction at `pc` (R69, R70). -/
def State.fetched (w : Word16) (f : Format) (xs : List Operand) (s : State) : State :=
  { s with
    opaddr := s.pc
    opc := w
    opnd := latchOperands s.opnd xs
    pc := s.pc + BitVec.ofNat 16 (xs.length + 1)
    k := Fin.ofNat 4 xs.length
    fsm := if xs.length = f.arity then .execute else .fetchOpnd }

/-- `State.fetched` starts from what FETCH_OP latches. -/
theorem fsmFetchOp_eq_fetched {s : State} {w : Word16} {f : Format} (hw : s.mem.cellAt s.pc.toNat = some w)
    (hf : opcodeFormat w = some f) : fsmFetchOp s = s.fetched w f [] := by
  rw [fsmFetchOp_opcode hw hf]
  simp only [State.fetched, List.length_nil, eq_comm (a := 0)]
  rfl

/-- Once all operands are there, the FSM is in the state from which the whole step executes. -/
theorem fetched_eq_latchInstr {w : Word16} {f : Format} (hf : opcodeFormat w = some f) (x y z : Operand) (s : State) :
    s.fetched w f ([x, y, z].take f.arity) = latchInstr (f.build x y z) (f.arity + 1) s := by
  obtain ⟨hop, hxs⟩ := opcodeFormat_build hf x y z
  have hlen : ([x, y, z].take f.arity).length = f.arity := List.length_take_of_le f.arity_le
  simp [State.fetched, latchInstr, hop, hxs, hlen]

/-- One more operand goes to the latch after those already filled. -/
theorem latchOperands_append (v : Vector Operand 3) {xs : List Operand} (h : xs.length < 3) (x : Operand) :
    latchOperands v (xs ++ [x]) = (latchOperands v xs).set xs.length x := by
  match xs, h with
  | [], _ => rfl
  | [_], _ => rfl
  | [_, _], _ => rfl

/-- The address of the next operand word: inside an instruction `pc` does not wrap (10_state.md R20). -/
theorem fetched_pc_toNat {s : State} {xs : List Operand} (w : Word16) (f : Format) (hpc : s.pc.toNat < 32768)
    (h : xs.length < 3) : (s.fetched w f xs).pc.toNat = s.pc.toNat + (xs.length + 1) := by
  simp only [State.fetched, BitVec.toNat_add, BitVec.toNat_ofNat]
  omega

/-- FETCH_OPND in such a state: the word it looks at, and its two faults, or one more operand fetched (R70). -/
theorem fsmStep_fetched {s : State} {w : Word16} {f : Format} {xs : List Operand} (hf : opcodeFormat w = some f)
    (hpc : s.pc.toNat < 32768) (h : xs.length < f.arity) :
    (s.mem.cellAt (s.pc.toNat + (xs.length + 1)) = none ∧
      fsmStep (s.fetched w f xs) = finishFault .fetchOutOfRange (s.fetched w f xs).pc (s.fetched w f xs)) ∨
    (∃ u, s.mem.cellAt (s.pc.toNat + (xs.length + 1)) = some u ∧ decodeOperand u = none ∧
      fsmStep (s.fetched w f xs) = finishFault .invalidOperand u (s.fetched w f xs)) ∨
    ∃ u x, s.mem.cellAt (s.pc.toNat + (xs.length + 1)) = some u ∧ decodeOperand u = some x ∧
      fsmStep (s.fetched w f xs) = .next (s.fetched w f (xs ++ [x])) := by
  have h3 : xs.length < 3 := h.trans_le f.arity_le
  have hk : (s.fetched w f xs).k.val = xs.length := Nat.mod_eq_of_lt (h3.trans (by decide))
  have hfsm : (s.fetched w f xs).fsm = .fetchOpnd := if_neg h.ne
  rw [← fetched_pc_toNat w f hpc h3]
  rcases fsmStep_fetchOpnd hfsm hf (hk.trans_lt h3) with hc | hc | ⟨u, x, hu, hx, hstep⟩
  · exact .inl hc
  · exact .inr (.inl hc)
  · refine .inr (.inr ⟨u, x, hu, hx, hstep.trans ?_⟩)
    have hsucc : Fin.ofNat 4 xs.length + 1 = Fin.ofNat 4 (xs.length + 1) := Fin.ext (Nat.mod_add_mod _ _ _)
    simp only [hk]
    simp only [State.fetched, latchOperands_append _ h3, BitVec.add_assoc, BitVec.ofNat_add, List.length_append,
      List.length_singleton, hsucc]
    rfl

/-! ### Stages of the simulation (R72) -/

/-- The FSM stays inside the instruction. -/
theorem fetched_atBoundary (w : Word16) (f : Format) (xs : List Operand) (s : State) :
    (s.fetched w f xs).atBoundary = false := by
  by_cases h : xs.length = f.arity <;> simp [State.atBoundary, State.fetched, h]

/-- The latches hold the operands that the format asks for. -/
theorem build_latchOperands (v : Vector Operand 3) (f : Format) (x y z : Operand) :
    f.build (latchOperands v ([x, y, z].take f.arity))[0] (latchOperands v ([x, y, z].take f.arity))[1]
      (latchOperands v ([x, y, z].take f.arity))[2] = f.build x y z := by
  cases f <;> simp [Format.build, Format.arity, latchOperands]

/-- With the instruction complete: the same execute step, on the same state. -/
theorem fsmToBoundary_fetched {s : State} {w : Word16} {f : Format} (hf : opcodeFormat w = some f) (x y z : Operand)
    (n : Nat) :
    SameUpToLatches (fsmToBoundary (n + 2) (s.fetched w f ([x, y, z].take f.arity)))
      (afterDecode s (.instr (f.build x y z) (f.arity + 1))) := by
  have hlen : ([x, y, z].take f.arity).length = f.arity := List.length_take_of_le f.arity_le
  rw [fsmToBoundary_execute (if_pos hlen) hf (build_latchOperands s.opnd f x y z), fetched_eq_latchInstr hf]
  rfl

/-- One operand: the FSM's fault is that of the step, or it goes on with one more operand fetched. -/
theorem fsmToBoundary_fetchOpnd {s : State} {w : Word16} {f : Format} {xs : List Operand} {n : Nat}
    {go : Operand → Decoded} (hf : opcodeFormat w = some f) (hpc : s.pc.toNat < 32768) (h : xs.length < f.arity)
    (hgo : ∀ x, SameUpToLatches (fsmToBoundary n (s.fetched w f (xs ++ [x]))) (afterDecode s (go x))) :
    SameUpToLatches (fsmToBoundary (n + 1) (s.fetched w f xs))
      (afterDecode s (withOperand s.mem.cellAt (s.pc.toNat + (xs.length + 1)) go)) := by
  have hpc' := fetched_pc_toNat w f hpc (h.trans_le f.arity_le)
  rcases fsmStep_fetched hf hpc h with ⟨hc, hstep⟩ | ⟨u, hc, hx, hstep⟩ | ⟨u, x, hc, hx, hstep⟩
  · rw [fsmToBoundary_succ hstep]
    have hinfo : (s.fetched w f xs).pc = BitVec.ofNat 16 (s.pc.toNat + (xs.length + 1)) := by rw [← hpc']; simp
    simp only [withOperand, hc, hinfo]
    rfl
  · rw [fsmToBoundary_succ hstep]
    simp only [withOperand, hc, hx]
    rfl
  · rw [fsmToBoundary_succ hstep, fetched_atBoundary]
    simp only [withOperand, hc, hx]
    exact hgo x

/-- R72, R76: from FETCH_OP the FSM ends where the whole step ends, up to latches. -/
theorem fsmToBoundary_sameUpToLatches_step {s : State} (hs : s.fsm = .fetchOp) :
    SameUpToLatches (fsmToBoundary 6 s) (step s) := by
  rw [step_eq_afterDecode hs, fsmToBoundary_succ (fsmStep_fetchOp hs)]
  cases hw : s.mem.cellAt s.pc.toNat with
  | none =>
    simp only [fsmFetchOp_outOfRange hw, decode, hw, afterDecode, BitVec.ofNat_toNat, BitVec.setWidth_eq]
    rfl
  | some w =>
    have hpc := Memory.lt_of_cellAt hw
    cases hf : opcodeFormat w with
    | none =>
      simp only [fsmFetchOp_unrecognized hw hf, decode, hw, hf]
      rfl
    | some f =>
      rw [fsmFetchOp_eq_fetched hw hf, fetched_atBoundary]
      cases f with
      | f0 i =>
        simp only [decode, hw, hf]
        exact fsmToBoundary_fetched hf (.lit 0) (.lit 0) (.lit 0) 3
      | f1 mk =>
        simp only [decode, hw, hf]
        exact fsmToBoundary_fetchOpnd hf hpc (by simp [Format.arity]) fun x =>
          fsmToBoundary_fetched hf x (.lit 0) (.lit 0) 2
      | f2 mk =>
        simp only [decode, hw, hf]
        exact fsmToBoundary_fetchOpnd hf hpc (by simp [Format.arity]) fun x =>
          fsmToBoundary_fetchOpnd hf hpc (by simp [Format.arity]) fun y =>
          fsmToBoundary_fetched hf x y (.lit 0) 1
      | f3 mk =>
        simp only [decode, hw, hf]
        exact fsmToBoundary_fetchOpnd hf hpc (by simp [Format.arity]) fun x =>
          fsmToBoundary_fetchOpnd hf hpc (by simp [Format.arity]) fun y =>
          fsmToBoundary_fetchOpnd hf hpc (by simp [Format.arity]) fun z =>
          fsmToBoundary_fetched hf x y z 0

/-- An answer that agrees with a next state up to latches is a next state. -/
theorem SameUpToLatches.exists_next {r : Result} {t : State} (h : SameUpToLatches r (.next t)) :
    ∃ u, r = .next u ∧ u.forgetLatches = t.forgetLatches := by
  cases r with
  | next u => exact ⟨u, rfl, Host.Outcome.next.inj h⟩
  | fault | refused => cases h

/-- Settles O12: the FSM simulates the step word by word of decode, and both end at a boundary. -/
theorem fsmReachesTheStateOfTheStep : Obligations.FsmReachesTheStateOfTheStep := by
  intro s hf
  obtain ⟨t, ht, hb⟩ := step_next_atBoundary (s := s) (by simp [State.atBoundary, hf])
  obtain ⟨u, hu, hut⟩ := (ht ▸ fsmToBoundary_sameUpToLatches_step hf).exists_next
  exact ⟨t, u, ht, hu, hb, hut⟩

/-! ### What the execute step changes -/

theorem onlyChanges_starve (s : State) : OnlyChanges [.pc, .status, .fsm] s (starve s) :=
  ((onlyChanges_pc s s.opaddr).mono (by decide)).trans ((onlyChanges_suspend .inputStarved _).mono (by decide))

/-- Settles O18: each case of the execute step is one of the four outcomes. -/
theorem executeStepEndsInOneOfFourOutcomes : Obligations.ExecuteStepEndsInOneOfFourOutcomes := by
  intro i s
  obtain ⟨t, ht, hx⟩ := exec_case i s
  refine ⟨t, ht, ?_⟩
  cases hx with
  | fault cause info _ hn =>
    exact .inr (.inr (.inr ⟨cause, _, hn, faultEntered_raiseFault cause info s, onlyChanges_raiseFault cause info s⟩))
  | halt hi => exact .inr (.inl ⟨hi, rfl, rfl, onlyChanges_suspend .halted s⟩)
  | starved d hi hq => exact .inr (.inr (.inl ⟨d, hi, hq, rfl, rfl, rfl, onlyChanges_starve s⟩))
  | _ =>
    refine .inl ⟨rfl, fun p hp => ?_⟩
    cases p with
    | bps | outEn | status | outRead | params => rfl
    | faultRecord => exact ⟨rfl, rfl, rfl⟩
    | latches => exact ⟨rfl, rfl, rfl, rfl⟩
    | regs | pc | mem | stack | inq | outlog | fsm => exact absurd (by decide) hp

/-- What an execute step does to the stack (R82). -/
theorem ExecCase.stack_cases {i : Instr} {s t : State} (hx : ExecCase i s t) :
    t.stack = s.stack ∨
    (∃ v, t.stack = v :: s.stack ∧ ((∃ x, i = .push x) ∨ ∃ x, i = .functionCall x)) ∨
    ∃ v, s.stack = v :: t.stack ∧ ((∃ x, i = .pop x) ∨ i = .functionReturn) := by
  cases hx with
  | pushed x hi => exact .inr (.inl ⟨_, rfl, .inl ⟨x, hi⟩⟩)
  | called x hi => exact .inr (.inl ⟨_, rfl, .inr ⟨x, hi⟩⟩)
  | popped d v rest hi hs => exact .inr (.inr ⟨v, hs, .inl ⟨_, hi⟩⟩)
  | returned v rest hi hs => exact .inr (.inr ⟨v, hs, .inr hi⟩)
  | _ => exact .inl rfl

/-- What an execute step does to the queue (R82). -/
theorem ExecCase.inq_cases {i : Instr} {s t : State} (hx : ExecCase i s t) :
    t.inq = s.inq ∨ ∃ v d, s.inq = v :: t.inq ∧ i = .readChar (.reg d) := by
  cases hx with
  | dequeued d v rest hi hq => exact .inr ⟨v, d, hq, hi⟩
  | _ => exact .inl rfl

/-- What an execute step does to the output (R82). -/
theorem ExecCase.outlog_cases {i : Instr} {s t : State} (hx : ExecCase i s t) :
    t.outlog = s.outlog ∨ ∃ v x, t.outlog = s.outlog ++ [v] ∧ i = .printChar x := by
  cases hx with
  | emitted x hi => exact .inr ⟨_, x, rfl, hi⟩
  | _ => exact .inl rfl

/-- What an execute step does to `pc` (10_state.md R19). -/
theorem ExecCase.pc_cases {i : Instr} {s t : State} (hx : ExecCase i s t) :
    t.pc = s.pc ∨ t.pc = s.opaddr ∨ (∃ x, i = .jump x) ∨ (∃ c x, i = .jumpIfTrue c x) ∨
      (∃ c x, i = .jumpIfFalse c x) ∨ (∃ x, i = .functionCall x) ∨ i = .functionReturn := by
  cases hx with
  | fault | starved => exact .inr (.inl rfl)
  | jumped x hi =>
    rcases hi with hi | ⟨c, hi⟩ | ⟨c, hi⟩
    · exact .inr (.inr (.inl ⟨x, hi⟩))
    · exact .inr (.inr (.inr (.inl ⟨c, x, hi⟩)))
    · exact .inr (.inr (.inr (.inr (.inl ⟨c, x, hi⟩))))
  | called x hi => exact .inr (.inr (.inr (.inr (.inr (.inl ⟨x, hi⟩)))))
  | returned v rest hi => exact .inr (.inr (.inr (.inr (.inr (.inr hi)))))
  | _ => exact .inl rfl

/-- A cell that an execute step changes is the one its MemoryWrite addresses. -/
theorem ExecCase.memoryWrite_of_read_ne {i : Instr} {s t : State} {a : Nat} (hx : ExecCase i s t)
    (ha : t.mem.read a ≠ s.mem.read a) : ∃ x v, i = .memoryWrite x v ∧ resolveAddr s x = a := by
  rcases hx.mem_cases with hm | ⟨x, v, hi, hm⟩
  · exact absurd (by rw [hm]) ha
  · refine ⟨x, v, hi, ?_⟩
    by_contra hne
    exact ha (by rw [hm, Memory.read_write_other _ _ (Ne.symm hne)])

/-- Settles O20: store by store. -/
theorem eachStoreIsUsedOnlyByItsInstructions : Obligations.EachStoreIsUsedOnlyByItsInstructions := by
  intro i s t h
  have hx := exec_case_of_next h
  exact ⟨fun _ => hx.memoryWrite_of_read_ne, hx.stack_cases, hx.inq_cases, hx.outlog_cases, hx.pc_cases⟩

/-! ### The whole step -/

theorem operands_length_le (i : Instr) : i.operands.length ≤ 3 := by
  obtain ⟨f, x, y, z, -, -, h⟩ := opcodeFormat_opcode i
  rw [h]
  exact List.length_take_le' _ _

/-- The latch K counts the operands fetched (R70). -/
theorem latchInstr_k_val {cellAt : Nat → Option Word16} {a : Nat} {i : Instr} {len : Nat} (s : State)
    (hd : decode cellAt a = .instr i len) : (latchInstr i len s).k.val + 1 = len := by
  obtain rfl := length_of_decode hd
  exact congrArg (· + 1) (Nat.mod_eq_of_lt (Nat.lt_succ_of_le (operands_length_le i)))

/-- Settles O7: the step is the execute step on the latched state, and what follows it. -/
theorem stepRunsTheDecodedInstruction : Obligations.StepRunsTheDecodedInstruction := by
  intro s i len hf hd
  obtain ⟨t, ht, -⟩ := exec_case i (latchInstr i len s)
  have hstep : step s = afterExecute (.next t) := ht ▸ step_instr hf hd
  refine ⟨latchInstr i len s, t, rfl, rfl, rfl, latchInstr_k_val s hd, rfl, onlyChanges_latchInstr i len s, ht,
    fun hc hb => ?_, fun hc hb => ?_, fun hc => ?_⟩
  · rw [hstep, afterExecute_normal hc, fsmCheck_hit hb]
    rfl
  · rw [hstep, afterExecute_normal hc, fsmCheck_miss hb]
  · rw [hstep, afterExecute_ended hc]

theorem Memory.not_lt_of_cellAt {m : Memory} {p : Nat} (h : m.cellAt p = none) : ¬ p < 32768 := fun hlt => by
  rw [Memory.cellAt_of_lt m hlt] at h
  cases h

theorem Memory.read_of_cellAt {m : Memory} {p : Nat} {w : Word16} (h : m.cellAt p = some w) : m.read p = w :=
  Option.some.inj ((Memory.cellAt_of_lt m (Memory.lt_of_cellAt h)).symm.trans h)

/-- A word that decode misses lies at an address of 32768 or more that a 16-bit `pc` can hold (10_state.md R18). -/
theorem fetchFault_bounds {m : Memory} {pc : Word16} {p : Nat} (h : decode m.cellAt pc.toNat = .fetchFault p) :
    32768 ≤ p ∧ p < 65536 := by
  cases decode_case_of_eq h with
  | noOpcode hp => exact ⟨Nat.not_lt.mp (Memory.not_lt_of_cellAt hp), pc.isLt⟩
  | noOperand _ hr hle hp =>
    obtain ⟨w, hw, -⟩ := hr.opcode
    have hlt := Memory.lt_of_cellAt hw
    exact ⟨Nat.not_lt.mp (Memory.not_lt_of_cellAt hp), by omega⟩

/-- Settles O8: each failing answer of decode has its fault. -/
theorem stepFaultsWhereDecodingFails : Obligations.StepFaultsWhereDecodingFails := by
  intro s hf
  refine ⟨fun p hd => ?_, fun w len hd => ?_, fun u p hd => ?_⟩
  · obtain ⟨hge, hlt⟩ := fetchFault_bounds hd
    exact ⟨hge, .of_cycle hf (by rw [instructionCycle, hd]) (by rw [BitVec.toNat_ofNat, Nat.mod_eq_of_lt hlt])⟩
  · exact ⟨(opcode_of_decode_unrecognized hd).2, .of_cycle hf (by rw [instructionCycle, hd]) rfl⟩
  · cases decode_case_of_eq hd with
    | badOperand _ _ _ _ _ hu => exact ⟨hu, .of_cycle hf (by rw [instructionCycle, hd]) rfl⟩

/-- Settles O24: a decode fault and an execute step that ends the run stop it, and the breakpoint check either stops it
or lets it go on. -/
theorem runHasExactlyFourExits : Obligations.RunHasExactlyFourExits := by
  intro s hf hs
  obtain ⟨t, ht, hx⟩ := step_case hf
  refine ⟨t, ht, ?_⟩
  cases hx with
  | decodeFault => exact .inr ⟨rfl, by simp⟩
  | ended i len t hd hx he hstop hr => exact .inr ⟨hstop, by rcases hr with hr | hr | hr <;> simp [hr]⟩
  | normal i len t hd hx he hc hr =>
    by_cases hb : AtBreakpoint t
    · rw [fsmCheck_hit hb]
      exact .inr ⟨rfl, by simp⟩
    · rw [fsmCheck_miss hb]
      exact .inl ⟨rfl, hr.trans hs⟩

/-! ### Breakpoints (R73) -/

theorem onlyChanges_fsm (s : State) (m : FsmState) : OnlyChanges [.fsm] s { s with fsm := m } := by
  intro p hp
  cases p <;> simp_all [Part.Same, State.reg]

/-- No execute step changes the breakpoint set (10_state.md R24). -/
theorem ExecCase.bps {i : Instr} {s t : State} (hx : ExecCase i s t) : t.bps = s.bps := by
  cases hx <;> rfl

theorem fsmCheck_bps (s : State) : (fsmCheck s).bps = s.bps := onlyChanges_fsmCheck s .bps (by decide)

/-- Nor does a step. -/
theorem StepCase.bps {s t : State} (hx : StepCase s t) : t.bps = s.bps := by
  cases hx with
  | decodeFault => rfl
  | ended i len t hd hx => exact hx.bps
  | normal i len t hd hx => exact (fsmCheck_bps t).trans hx.bps

/-- A run goes on only where `pc` is in no breakpoint, and ends BREAKPOINT only where it is in one. -/
theorem StepCase.breakpoint {s t : State} (hx : StepCase s t) (hs : s.status = .running) :
    (t.status = .running → ¬ AtBreakpoint t) ∧ (t.status = .breakpoint → AtBreakpoint t) := by
  cases hx with
  | decodeFault => exact ⟨nofun, nofun⟩
  | ended i len t hd hx he hstop hr => rcases hr with hr | hr | hr <;> simp [hr]
  | normal i len t hd hx he hc hr =>
    by_cases hb : AtBreakpoint t
    · rw [fsmCheck_hit hb]
      exact ⟨nofun, fun _ => hb⟩
    · rw [fsmCheck_miss hb]
      exact ⟨fun _ => hb, fun h => by simp [hr, hs] at h⟩

/-- Settles O9: the CHECK transition in its two cases, and the step by its cases. -/
theorem breakpointsStopOnArrival : Obligations.BreakpointsStopOnArrival := by
  refine ⟨fun s hf => ?_, fun s t hf hs ht => ?_, fun s t i len hf hd ht hr hs => ?_⟩
  · refine ⟨_, fsmStep_check hf, fun hb => ?_, fun hb => ?_⟩
    · rw [fsmCheck_hit hb]
      exact ⟨rfl, rfl, onlyChanges_suspend .breakpoint s⟩
    · rw [fsmCheck_miss hb]
      exact ⟨rfl, onlyChanges_fsm s .fetchOp⟩
  · have hx := step_case_of_next hf ht
    obtain ⟨hrun, hbreak⟩ := hx.breakpoint hs
    exact ⟨hx.bps, hrun, hbreak⟩
  · have hc : t.fsm ≠ .check := by
      rcases exec_fsm_cases ht with ⟨-, hst⟩ | ⟨hstop, -⟩
      · rw [hst, latchInstr_status, hs] at hr
        simp at hr
      · simp [hstop]
    rw [step_instr hf hd, ht, afterExecute_ended hc]

/-! ### The FSM's transitions -/

/-- A fetch transition writes latches, `pc` and the FSM (R69, R70). -/
theorem onlyChanges_fetch (s : State) (a w : Word16) (v : Vector Operand 3) (k : Fin 4) (p : Word16) (m : FsmState) :
    OnlyChanges [.latches, .pc, .fsm] s { s with opaddr := a, opc := w, opnd := v, k := k, pc := p, fsm := m } := by
  intro q hq
  cases q <;> simp_all [Part.Same, State.reg]

/-- A fault in FETCH_OP, with whatever it has latched by then. -/
theorem onlyChanges_raiseFault_fetch (c : FaultCause) (n : Word16) (s : State) (a w p : Word16) :
    OnlyChanges (.latches :: faultParts) s (raiseFault c n { s with opaddr := a, opc := w, pc := p }) :=
  ((onlyChanges_fetch s a w s.opnd s.k p s.fsm).mono (by decide)).trans
    ((onlyChanges_raiseFault c n _).mono (List.subset_cons_self _ _))

/-- Settles O10: each of the two fetch transitions, case by case. -/
theorem fsmFetchTransitions : Obligations.FsmFetchTransitions := by
  refine ⟨fun s hs => ⟨_, fsmStep_fetchOp hs, ?_⟩, fun s f hs hf hk => ?_⟩
  · cases hc : s.mem.cellAt s.pc.toNat with
    | none =>
      rw [fsmFetchOp_outOfRange hc]
      exact ⟨rfl, fun _ => ⟨faultEntered_raiseFault .fetchOutOfRange s.pc { s with opaddr := s.pc },
        onlyChanges_raiseFault_fetch _ _ s s.pc s.opc s.pc⟩, fun h => absurd h (Memory.not_lt_of_cellAt hc)⟩
    | some w =>
      have hpc := Memory.lt_of_cellAt hc
      obtain rfl := Memory.read_of_cellAt hc
      cases hf : opcodeFormat (s.mem.read s.pc.toNat) with
      | none =>
        rw [fsmFetchOp_unrecognized hc hf]
        exact ⟨rfl, fun h => absurd hpc (Nat.not_lt.mpr h), fun _ => ⟨rfl, fun _ =>
          ⟨faultEntered_raiseFault .unrecognizedOpcode _ _, onlyChanges_raiseFault_fetch _ _ s _ _ _⟩,
          fun f h => by cases hf.symm.trans h⟩⟩
      | some f =>
        rw [fsmFetchOp_opcode hc hf]
        refine ⟨rfl, fun h => absurd hpc (Nat.not_lt.mpr h), fun _ => ⟨rfl, fun h => (by cases hf.symm.trans h),
          fun g hg => ?_⟩⟩
        obtain rfl : f = g := Option.some.inj (hf.symm.trans hg)
        exact ⟨pc_succ_toNat hpc, rfl, rfl, fun h => if_pos h, fun h => if_neg h, onlyChanges_fetch s _ _ _ _ _ _⟩
  · have hk3 : s.k.val < 3 := hk.trans_le f.arity_le
    rcases fsmStep_fetchOpnd hs hf hk3 with ⟨hc, hstep⟩ | ⟨u, hc, hx, hstep⟩ | ⟨u, x, hc, hx, hstep⟩
    · have hpc := Memory.not_lt_of_cellAt hc
      exact ⟨_, hstep, fun _ => ⟨faultEntered_raiseFault _ _ s, onlyChanges_raiseFault _ _ s⟩, fun h => absurd h hpc,
        fun _ h => absurd h hpc⟩
    · have hpc := Memory.lt_of_cellAt hc
      obtain rfl := Memory.read_of_cellAt hc
      exact ⟨_, hstep, fun h => absurd hpc (Nat.not_lt.mpr h),
        fun _ _ => ⟨faultEntered_raiseFault _ _ s, onlyChanges_raiseFault _ _ s⟩,
        fun y _ hy => by cases hx.symm.trans hy⟩
    · have hpc := Memory.lt_of_cellAt hc
      obtain rfl := Memory.read_of_cellAt hc
      refine ⟨_, hstep, fun h => absurd hpc (Nat.not_lt.mpr h), fun _ h => (by cases hx.symm.trans h),
        fun y _ hy => ?_⟩
      obtain rfl : x = y := Option.some.inj (hx.symm.trans hy)
      exact ⟨pc_succ_toNat hpc, Fin.val_add_one_of_lt hk3, rfl, rfl, Vector.getElem?_set_self hk3,
        fun j hj => Vector.getElem?_set_ne hk3 (Ne.symm hj), fun h => if_pos h, fun h => if_neg h,
        onlyChanges_fetch s _ _ _ _ _ _⟩

theorem fsmStep_stopped {s : State} (h : s.fsm = .stopped) : fsmStep s = .next s := by
  simp [fsmStep, h]

/-- A stop is coherent with every STATUS but RUNNING, and asks nothing of the latches (R67). -/
theorem consistent_of_stopped {t : State} (hf : t.fsm = .stopped) (hs : t.status ≠ .running) :
    t.Coherent ∧ t.LatchesConsistent :=
  ⟨iff_of_false hs (· hf), by simp [hf], by simp [hf]⟩

/-- CHECK and FETCH_OP ask nothing of the latches. -/
theorem consistent_of_running {t : State} (hs : t.status = .running) (hf : t.fsm = .check ∨ t.fsm = .fetchOp) :
    t.Coherent ∧ t.LatchesConsistent := by
  rcases hf with hf | hf <;> exact ⟨iff_of_true hs (by simp [hf]), by simp [hf], by simp [hf]⟩

/-- Inside a fetch, OPC has a row in the opcode map, and K is below its arity while there is an operand to fetch. -/
theorem consistent_of_fetching {t : State} {f : Format} (hs : t.status = .running) (ho : opcodeFormat t.opc = some f)
    (hf : t.fsm = .execute ∨ t.fsm = .fetchOpnd ∧ t.k.val < f.arity) : t.Coherent ∧ t.LatchesConsistent := by
  rcases hf with hf | ⟨hf, hk⟩
  · exact ⟨iff_of_true hs (by simp [hf]), by simp [hf], fun _ => ⟨f, ho⟩⟩
  · exact ⟨iff_of_true hs (by simp [hf]), fun _ => ⟨f, ho, hk⟩, by simp [hf]⟩

theorem fsmFetchOp_consistent {s : State} (hs : s.status = .running) :
    (fsmFetchOp s).Coherent ∧ (fsmFetchOp s).LatchesConsistent := by
  cases hc : s.mem.cellAt s.pc.toNat with
  | none =>
    rw [fsmFetchOp_outOfRange hc]
    exact consistent_of_stopped rfl nofun
  | some w =>
    cases hf : opcodeFormat w with
    | none =>
      rw [fsmFetchOp_unrecognized hc hf]
      exact consistent_of_stopped rfl nofun
    | some f =>
      rw [fsmFetchOp_opcode hc hf]
      refine consistent_of_fetching hs hf ?_
      by_cases ha : f.arity = 0
      · exact .inl (if_pos ha)
      · exact .inr ⟨if_neg ha, Nat.pos_of_ne_zero ha⟩

theorem fsmCheck_consistent {s : State} (hs : s.status = .running) :
    (fsmCheck s).Coherent ∧ (fsmCheck s).LatchesConsistent := by
  by_cases hb : AtBreakpoint s
  · rw [fsmCheck_hit hb]
    exact consistent_of_stopped rfl nofun
  · rw [fsmCheck_miss hb]
    exact consistent_of_running hs (.inr rfl)

/-- Settles O11: every transition ends in a stop with a reason, or leaves STATUS RUNNING and the latches as a fetch
writes them. -/
theorem fsmKeepsStatusAndLatchesConsistent : Obligations.FsmKeepsStatusAndLatchesConsistent := by
  intro s hc hl
  have hrun : s.fsm ≠ .stopped → s.status = .running := hc.mpr
  cases hs : s.fsm with
  | stopped => exact ⟨s, fsmStep_stopped hs, hc, hl⟩
  | fetchOp => exact ⟨_, fsmStep_fetchOp hs, fsmFetchOp_consistent (hrun (by simp [hs]))⟩
  | fetchOpnd =>
    obtain ⟨f, hf, hk⟩ := hl.1 hs
    have hk3 : s.k.val < 3 := hk.trans_le f.arity_le
    rcases fsmStep_fetchOpnd hs hf hk3 with ⟨-, hstep⟩ | ⟨u, -, -, hstep⟩ | ⟨u, x, -, -, hstep⟩
    · exact ⟨_, hstep, consistent_of_stopped rfl nofun⟩
    · exact ⟨_, hstep, consistent_of_stopped rfl nofun⟩
    · refine ⟨_, hstep, consistent_of_fetching (hrun (by simp [hs])) hf ?_⟩
      have hsucc : (s.k + 1).val = s.k.val + 1 := Fin.val_add_one_of_lt hk3
      by_cases ha : s.k.val + 1 = f.arity
      · exact .inl (if_pos ha)
      · exact .inr ⟨if_neg ha, by simp only [hsucc]; omega⟩
  | execute =>
    obtain ⟨f, hf⟩ := hl.2 hs
    obtain ⟨t, ht, -⟩ := exec_case (f.build s.opnd[0] s.opnd[1] s.opnd[2]) s
    refine ⟨t, (fsmStep_execute hs hf).trans ht, ?_⟩
    rcases exec_fsm_cases ht with ⟨hcheck, hst⟩ | ⟨hstop, hst⟩
    · exact consistent_of_running (hst.trans (hrun (by simp [hs]))) (.inl hcheck)
    · exact consistent_of_stopped hstop (by rcases hst with hst | hst | hst <;> simp [hst])
  | check => exact ⟨_, fsmStep_check hs, fsmCheck_consistent (hrun (by simp [hs]))⟩

/-! ### A jump to itself (R81) -/

/-- A run at a Jump to its own address, with no breakpoint there. -/
structure State.AtSelfJump (v : Word15) (s : State) : Prop where
  fetching : s.fsm = .fetchOp
  target : v.toNat = s.pc.toNat
  decoded : decode s.mem.cellAt s.pc.toNat = .instr (.jump (.lit v)) 2
  noBreakpoint : ¬ AtBreakpoint s

theorem onlyChanges_latches (s : State) (a w : Word16) (v : Vector Operand 3) (k : Fin 4) :
    OnlyChanges [.latches] s { s with opaddr := a, opc := w, opnd := v, k := k } := by
  intro p hp
  cases p <;> simp_all [Part.Same, State.reg]

/-- One step writes the latches and comes back to the same jump. -/
theorem State.AtSelfJump.step_eq {v : Word15} {s : State} (h : s.AtSelfJump v) :
    step s = .next { s with opaddr := s.pc, opc := 6, opnd := s.opnd.set 0 (.lit v), k := 1 } := by
  have hpc : resolveTarget s (.lit v) = s.pc := BitVec.eq_of_toNat_eq ((resolveTarget_toNat s _).trans h.target)
  rw [step_instr h.fetching h.decoded]
  refine (afterExecute_normal rfl).trans (congrArg Host.Outcome.next ?_)
  have hb : ¬ AtBreakpoint { latchInstr (.jump (.lit v)) 2 s with pc := resolveTarget s (.lit v), fsm := .check } := by
    rw [hpc]
    exact h.noBreakpoint
  refine (fsmCheck_miss hb).trans ?_
  rw [hpc, ← h.fetching]
  rfl

theorem State.AtSelfJump.exists_step {v : Word15} {s : State} (h : s.AtSelfJump v) :
    ∃ t, step s = .next t ∧ t.AtSelfJump v ∧ OnlyChanges [.latches] s t :=
  ⟨_, h.step_eq, { h with }, onlyChanges_latches s _ _ _ _⟩

/-- Any number of steps stays there. -/
theorem State.AtSelfJump.stepsTo (n : Nat) {v : Word15} {s : State} (h : s.AtSelfJump v) :
    ∃ t, StepsTo n s t ∧ t.AtSelfJump v ∧ OnlyChanges [.latches] s t := by
  induction n generalizing s with
  | zero => exact ⟨s, .zero s, h, .refl _ s⟩
  | succ n ih =>
    obtain ⟨t, ht, h', hst⟩ := h.exists_step
    obtain ⟨u, hu, h'', htu⟩ := ih h'
    exact ⟨u, .succ ht hu, h'', hst.trans htu⟩

/-- Settles O54: by induction on the number of steps, each of which comes back to the jump. -/
theorem selfJumpNeverEnds : Obligations.SelfJumpNeverEnds := by
  intro s v hf _ hv hd hb n
  obtain ⟨t, ht, h, hst⟩ := State.AtSelfJump.stepsTo n ⟨hf, hv, hd, hb⟩
  exact ⟨t, ht, h.fetching, hst⟩

/-! ### RUN, and a starved ReadChar (R68, R78) -/

theorem onlyChanges_run (s : State) :
    OnlyChanges [.status, .fsm] s { s with status := .running, fsm := .fetchOp } := by
  intro p hp
  cases p <;> simp_all [Part.Same, State.reg]

/-- Settles O45: RUN's one check, of STATUS, behind the check that the FSM is STOPPED. -/
theorem runStartsOnlyAStoppedUnfaultedCore : Obligations.RunStartsOnlyAStoppedUnfaultedCore := by
  intro s
  refine ⟨fun hf hs => ?_, fun hs => ?_, fun hf => hostOp_running hf nofun⟩
  · have ha : s.status.acceptsRun = true := by
      simp only [List.mem_cons, List.not_mem_nil, or_false] at hs
      rcases hs with hs | hs | hs | hs <;> rw [hs] <;> rfl
    exact ⟨_, hostOp_run hf ha, rfl, rfl, onlyChanges_run s⟩
  · by_cases hf : s.fsm = .stopped
    · rw [hostOp_stopped hf]
      exact if_neg (by simp [hs, Status.acceptsRun])
    · exact hostOp_running hf nofun

/-- RUN and one step. -/
theorem runFor_one {s t : State} (hf : s.fsm = .stopped) (ha : s.status.acceptsRun = true)
    (h : step { s with status := .running, fsm := .fetchOp } = .next t) : runFor 1 s = .next t := by
  rw [runFor, hostOp_run hf ha]
  exact StepsTo.succ h (.zero t)

/-- APPEND_INPUT within the ranges and the capacity (60_exceptions.md R128). -/
theorem hostOp_appendInput {s : State} {codes : List Nat} (hf : s.fsm = .stopped) (hc : ∀ c ∈ codes, c ≤ 32767)
    (hfit : Fits s.params.inputCapacity (s.inq.length + codes.length)) :
    hostOp (.appendInput codes) s = accept { s with inq := s.inq ++ codes.map (BitVec.ofNat 15) } := by
  rw [hostOp_stopped hf]
  exact (if_neg (by simpa using hc)).trans (if_pos ((withinCapacity_iff _ _).mpr hfit))

theorem step_readChar_empty {s : State} {d : RegIdx} {len : Nat} (hf : s.fsm = .fetchOp)
    (hd : decode s.mem.cellAt s.pc.toNat = .instr (.readChar (.reg d)) len) (hq : s.inq = []) :
    step s = .next (starve (latchInstr (.readChar (.reg d)) len s)) := by
  rw [step_instr hf hd, exec_readChar_empty (s := latchInstr _ len s) d hq, afterExecute_ended (by simp [starve_eq])]

/-- A step whose execute step ends normally: only the breakpoint check follows. -/
theorem step_of_exec_normal {s e : State} {i : Instr} {len : Nat} (hf : s.fsm = .fetchOp)
    (hd : decode s.mem.cellAt s.pc.toNat = .instr i len) (he : exec i (latchInstr i len s) = .next e)
    (hc : e.fsm = .check) : ∃ t, step s = .next t ∧ OnlyChanges [.status, .fsm] e t :=
  ⟨_, by rw [step_instr hf hd, he, afterExecute_normal hc], onlyChanges_fsmCheck e⟩

/-- A step on a ReadChar with a value queued: what it changes, whether or not a breakpoint ends the run. -/
theorem step_readChar_cons {s : State} {d : RegIdx} {len : Nat} {v : Word15} {rest : List Word15}
    (hf : s.fsm = .fetchOp) (hd : decode s.mem.cellAt s.pc.toNat = .instr (.readChar (.reg d)) len)
    (hq : s.inq = v :: rest) :
    ∃ t, step s = .next t ∧ t.inq = rest ∧ WritesReg d v.toNat s t ∧ t.pc = s.pc + BitVec.ofNat 16 len ∧
      OnlyChanges [.inq, .regs, .pc, .status, .fsm, .latches] s t := by
  obtain ⟨t, ht, hcheck⟩ :=
    step_of_exec_normal hf hd (exec_readChar_cons (s := latchInstr (.readChar (.reg d)) len s) d hq) rfl
  have hreg := hcheck .regs (by decide)
  refine ⟨t, ht, hcheck .inq (by decide), ⟨?_, fun j hj => ?_⟩, hcheck .pc (by decide), ?_⟩
  · rw [hreg]
    exact congrArg BitVec.toNat (State.reg_setReg_same _ d v)
  · rw [hreg]
    exact State.reg_setReg_other _ v hj
  · refine OnlyChanges.trans ?_ (hcheck.mono (by decide))
    intro p hp
    cases p with
    | inq | regs | pc | status | fsm | latches => exact absurd (by decide) hp
    | mem => exact fun _ => rfl
    | faultRecord => exact ⟨rfl, rfl, rfl⟩
    | stack | bps | outEn | outlog | outRead | params => rfl

/-- A part that reads the same again drops out of a frame. -/
theorem OnlyChanges.drop {p : Part} {ps : List Part} {s t : State} (h : OnlyChanges (p :: ps) s t)
    (hp : p.Same s t) : OnlyChanges ps s t := by
  intro q hq
  by_cases hqp : q = p
  · exact hqp ▸ hp
  · exact h q (by simp [hqp, hq])

/-- Settles O56: the two cases of ReadChar, after the host's transactions. -/
theorem starvedReadResumes : Obligations.StarvedReadResumes := by
  intro s d hinv hst hq hd
  have hf : s.fsm = .stopped := by
    by_contra hf
    cases hst.symm.trans (hinv.coherent.mpr hf)
  have ha : s.status.acceptsRun = true := by rw [hst]; rfl
  refine ⟨⟨_, runFor_one hf ha (step_readChar_empty rfl hd hq), ?_⟩, fun c hc hfit => ?_⟩
  · intro p hp
    cases p <;> simp_all [Part.Same, starve_eq, State.reg]
  · have happend := hostOp_appendInput (codes := [c]) hf (by simpa using hc) (by simpa [hq] using hfit)
    rw [hq] at happend
    obtain ⟨t, ht, hinq, hreg, hpc, hframe⟩ :=
      step_readChar_cons (s := { s with inq := [BitVec.ofNat 15 c], status := .running, fsm := .fetchOp }) rfl hd rfl
    refine ⟨_, t, happend, runFor_one hf ha ht, hinq, ?_, hpc, OnlyChanges.drop (p := .inq) ?_ (hinq.trans hq.symm)⟩
    · rwa [BitVec.toNat_ofNat, Nat.mod_eq_of_lt (by omega)] at hreg
    · refine OnlyChanges.trans ?_ hframe
      intro p hp
      cases p <;> simp_all [Part.Same]

end Sys2Proof.Machine

/-! ## Machine control's statements: Halt and NoOp (41_machine_control.md) -/

namespace Sys2Proof.Machine

/-- A 0 inside the address space is the one word of Halt (30_encoding.md R54). -/
theorem decode_halt {s : State} (hpc : s.pc.toNat < 32768) (hw : s.mem.read s.pc.toNat = 0) :
    decode s.mem.cellAt s.pc.toNat = .instr .halt 1 :=
  decode_of_wordsAt_encode (i := .halt) ((wordsAt_cons ..).mpr
    ⟨(Memory.cellAt_of_lt _ hpc).trans (congrArg some hw), wordsAt_nil _ _⟩)

/-- A step on a Halt: the run ends past it, with no breakpoint check (R73, R83). -/
theorem step_halt {s : State} (hf : s.fsm = .fetchOp)
    (hd : decode s.mem.cellAt s.pc.toNat = .instr .halt 1) :
    step s = .next (suspend .halted (latchInstr .halt 1 s)) :=
  (step_instr hf hd).trans (afterExecute_ended (t := suspend .halted (latchInstr .halt 1 s)) nofun)

/-- Past the last cell there is nothing to fetch (10_state.md R20). -/
theorem stepFaults_of_pc_ge {s : State} (hf : s.fsm = .fetchOp) (hpc : 32768 ≤ s.pc.toNat) :
    StepFaults .fetchOutOfRange s.pc.toNat s := by
  have hd : decode s.mem.cellAt s.pc.toNat = .fetchFault s.pc.toNat := by
    rw [decode, Memory.cellAt_of_ge _ hpc]
  exact ((stepFaultsWhereDecodingFails s hf).1 _ hd).2

/-- Settles O26: the step on a Halt suspends the latched state, and RUN goes on from where that left `pc`. -/
theorem haltEndsTheRun : Obligations.HaltEndsTheRun := by
  refine ⟨rfl, fun s => ⟨_, rfl, rfl, rfl, onlyChanges_suspend .halted s⟩, fun s hf hpc hw => ?_⟩
  have hnext : (suspend .halted (latchInstr .halt 1 s)).pc.toNat = s.pc.toNat + 1 := pc_succ_toNat hpc
  have hframe : OnlyChanges [.pc, .status, .fsm, .latches] s (suspend .halted (latchInstr .halt 1 s)) :=
    ((onlyChanges_latchInstr .halt 1 s).mono (by decide)).trans ((onlyChanges_suspend .halted _).mono (by decide))
  refine ⟨_, step_halt hf (decode_halt hpc hw), hnext, rfl, rfl, hframe, _, hostOp_run rfl rfl, rfl, rfl,
    fun hlast => ?_⟩
  have hend : (suspend .halted (latchInstr .halt 1 s)).pc.toNat = 32768 := by rw [hnext, hlast]
  exact hend ▸ stepFaults_of_pc_ge rfl hend.ge

/-- Settles O27: the execute step is the normal end on an unchanged state. -/
theorem noOpChangesNothing : Obligations.NoOpChangesNothing :=
  ⟨rfl, fun s => ⟨_, rfl, .of_onlyChanges (.refl [] s)⟩⟩

end Sys2Proof.Machine

/-! ## The register and stack statements: SetRegister, Push and Pop (42_register_stack.md) -/

namespace Sys2Proof.Machine

/-! ### What a destination operand decides -/

/-- An instruction that takes the destination fault on every literal (30_encoding.md R58). -/
theorem literalDestinationFaults_of_exec {i : Operand → Instr} {s : State}
    (h : ∀ v, exec (i (.lit v)) s = finishFault .invalidDestination (cellOfWord v) s) :
    LiteralDestinationFaults i s :=
  fun v => .of_finishFault (h v) (cellOfWord_toNat v)

/-- An instruction that answers one register write, with the value as a number. -/
theorem exists_writesReg_of_exec {i : Instr} {s : State} {d : RegIdx} {v : Word15} {n : Nat}
    (h : exec i s = finishWrite d v s) (hv : v.toNat = n) :
    ∃ t, exec i s = .next t ∧ WritesReg d n s t ∧ EndsNormally [.regs] s t :=
  ⟨_, h, writesReg_setReg s d hv, endsNormally_setReg s d v⟩

/-- Settles O28: a literal destination is refused, and a register gets the resolved source. -/
theorem setRegisterWritesTheSource : Obligations.SetRegisterWritesTheSource := fun src =>
  ⟨fun _ => rfl, fun s =>
    ⟨literalDestinationFaults_of_exec fun _ => rfl, fun _ => exists_writesReg_of_exec rfl (resolve_toNat s src)⟩⟩

/-! ### The call stack's frames -/

theorem onlyChanges_stack (s : State) (entries : List Word16) :
    OnlyChanges [.stack] s { s with stack := entries } := by
  intro p hp
  cases p <;> simp_all [Part.Same, State.reg]

theorem endsNormally_stack (s : State) (entries : List Word16) :
    EndsNormally [.stack] s { s with stack := entries, fsm := .check } :=
  .of_onlyChanges (onlyChanges_stack s entries)

/-- A pop into a register changes the register file and the stack. -/
theorem onlyChanges_stack_setReg (s : State) (entries : List Word16) (d : RegIdx) (v : Word15) :
    OnlyChanges [.regs, .stack] s (({ s with stack := entries } : State).setReg d v) :=
  ((onlyChanges_stack s entries).mono (by decide)).trans ((onlyChanges_setReg _ d v).mono (by decide))

/-- Settles O29: the full stack's fault and the push with room, in each case of the capacity test. -/
theorem pushPutsTheSourceOnTop : Obligations.PushPutsTheSourceOnTop := by
  refine fun src => ⟨rfl, fun s => ⟨fun hfull => ?_, fun hroom => ?_⟩⟩
  · exact ⟨_, .of_finishFault (exec_push_full src hfull) rfl, overflowInfo_toNat⟩
  · exact ⟨_, _, exec_push_room src hroom, rfl, (cellOfWord_toNat _).trans (resolve_toNat s src),
      endsNormally_stack s _⟩

/-- Settles O30: the literal destination, the empty stack and the wide entry in turn, then the pop. -/
theorem popTakesTheTopEntry : Obligations.PopTakesTheTopEntry := by
  refine ⟨fun _ => rfl, fun s => ⟨literalDestinationFaults_of_exec fun _ => rfl, fun d =>
    ⟨fun hempty => ?_, fun v rest htop => ⟨fun hwide => ?_, fun hv => ?_⟩⟩⟩⟩
  · exact .of_finishFault (exec_pop_empty d hempty) rfl
  · exact .of_finishFault (exec_pop_wide d htop hwide) rfl
  · exact ⟨_, exec_pop_cons d htop hv, rfl, writesReg_setReg { s with stack := rest } d (wordOfCell_toNat_of_le hv),
      .of_onlyChanges (onlyChanges_stack_setReg s rest d _)⟩

end Sys2Proof.Machine

/-! ## The comparisons' statement: CompareEquals and CompareGreaterThan (43_compare.md) -/

namespace Sys2Proof.Machine

theorem flagWord_wordsEqual_toNat (s : State) (a b : Operand) :
    (flagWord (wordsEqual (resolve s a) (resolve s b))).toNat =
      if operandValue s a = operandValue s b then 1 else 0 := by
  simp only [flagWord_toNat, wordsEqual_iff, resolve_toNat]

theorem flagWord_wordGreater_toNat (s : State) (a b : Operand) :
    (flagWord (wordGreater (resolve s a) (resolve s b))).toNat =
      if operandValue s a > operandValue s b then 1 else 0 := by
  simp only [flagWord_toNat, wordGreater_iff, resolve_toNat, gt_iff_lt]

/-- Settles O31: a literal destination is refused, and a register gets the flag of the resolved operands. -/
theorem comparisonsWriteOneOrZero : Obligations.ComparisonsWriteOneOrZero := by
  refine fun a b => ⟨fun _ => ⟨rfl, rfl⟩, fun s => ⟨?_, ?_, fun d => ⟨?_, ?_⟩⟩⟩
  · exact literalDestinationFaults_of_exec fun _ => rfl
  · exact literalDestinationFaults_of_exec fun _ => rfl
  · exact exists_writesReg_of_exec rfl (flagWord_wordsEqual_toNat s a b)
  · exact exists_writesReg_of_exec rfl (flagWord_wordGreater_toNat s a b)

end Sys2Proof.Machine

/-! ## Control flow's statements: the jumps, FunctionCall and FunctionReturn (44_control_flow.md) -/

namespace Sys2Proof.Machine

/-! ### The jumps -/

theorem endsNormally_pc (s : State) (v : Word16) : EndsNormally [.pc] s { s with pc := v, fsm := .check } :=
  .of_onlyChanges (onlyChanges_pc s v)

theorem wordTrue_resolve_iff (s : State) (c : Operand) : wordTrue (resolve s c) = true ↔ operandValue s c ≠ 0 := by
  rw [wordTrue_iff, resolve_toNat]

/-- A branch: it goes to its target where its condition holds, and ends as NoOp does where it does not. -/
theorem exists_branch_of_exec {i : Instr} {s : State} {x : Operand} (taken : Prop)
    (htaken : taken → exec i s = execJump x s) (hnot : ¬ taken → exec i s = execNoOp s) :
    ∃ t, exec i s = .next t ∧ EndsNormally [.pc] s t ∧ (taken → t.pc.toNat = operandValue s x) ∧
      (¬ taken → t.pc = s.pc) := by
  by_cases h : taken
  · exact ⟨_, htaken h, endsNormally_pc s _, fun _ => resolveTarget_toNat s x, fun hn => absurd h hn⟩
  · exact ⟨_, hnot h, .of_onlyChanges (.refl [.pc] s), fun ht => absurd ht h, fun _ => rfl⟩

/-- Settles O32: the three jumps are branches, on no condition, on a value that is not 0 and on 0. -/
theorem jumpsWriteTheTarget : Obligations.JumpsWriteTheTarget := by
  refine fun c target => ⟨rfl, rfl, rfl, fun s => ⟨?_, ?_, ?_⟩⟩
  · exact ⟨_, rfl, resolveTarget_toNat s target, endsNormally_pc s _⟩
  · have h := exists_branch_of_exec (i := .jumpIfTrue c target) (operandValue s c ≠ 0)
      (fun ht => if_pos ((wordTrue_resolve_iff s c).mpr ht)) (fun hn => if_neg (mt (wordTrue_resolve_iff s c).mp hn))
    simpa only [not_not] using h
  · exact exists_branch_of_exec (operandValue s c = 0) (fun ht => if_neg fun h => (wordTrue_resolve_iff s c).mp h ht)
      (fun hn => if_pos ((wordTrue_resolve_iff s c).mpr hn))

/-! ### The execute steps of FunctionCall and FunctionReturn -/

theorem endsNormally_stack_pc (s : State) (entries : List Word16) (v : Word16) :
    EndsNormally [.pc, .stack] s { s with stack := entries, pc := v, fsm := .check } :=
  .of_onlyChanges (((onlyChanges_stack s entries).mono (by decide)).trans ((onlyChanges_pc _ v).mono (by decide)))

/-- Settles O33: the full stack's fault and the push with room, in each case of the capacity test. -/
theorem functionCallPushesTheReturnAddress : Obligations.FunctionCallPushesTheReturnAddress := by
  refine fun target => ⟨rfl, fun s => ⟨fun hfull => ?_, fun hroom => ?_⟩⟩
  · exact ⟨_, .of_finishFault (exec_functionCall_full target hfull) rfl, overflowInfo_toNat⟩
  · exact ⟨_, exec_functionCall_room target hroom, rfl, resolveTarget_toNat s target, endsNormally_stack_pc s _ _⟩

/-! ### Steps after which the run goes on -/

theorem not_atBreakpoint_of_bps_nil {s : State} (h : s.bps = []) : ¬ AtBreakpoint s := by
  simp [AtBreakpoint, h]

/-- A breakpoint is an address, so it is below 32768 (10_state.md R24). -/
theorem not_atBreakpoint_of_pc_ge {s : State} (h : 32768 ≤ s.pc.toNat) : ¬ AtBreakpoint s := by
  rintro ⟨b, -, hb⟩
  have := b.isLt
  omega

/-- An execute step that ends normally away from breakpoints: the step goes on, and it has changed what the execute
step changed, `pc` and latches. -/
theorem step_continues {s e : State} {i : Instr} {len : Nat} {ps : List Part} (hf : s.fsm = .fetchOp)
    (hd : decode s.mem.cellAt s.pc.toNat = .instr i len) (he : exec i (latchInstr i len s) = .next e)
    (hend : EndsNormally ps (latchInstr i len s) e) (hb : ¬ AtBreakpoint e) :
    step s = .next { e with fsm := .fetchOp } ∧
      OnlyChanges (.pc :: .latches :: ps) s { e with fsm := .fetchOp } := by
  obtain ⟨hcheck, hexec⟩ := hend
  have hps : Part.fsm :: ps ⊆ .fsm :: .pc :: .latches :: ps :=
    List.cons_subset_cons _ (List.subset_append_right [Part.pc, Part.latches] ps)
  have hframe : OnlyChanges (.fsm :: .pc :: .latches :: ps) s { e with fsm := .fetchOp } :=
    ((onlyChanges_latchInstr i len s).mono (by simp)).trans
      ((hexec.mono hps).trans ((onlyChanges_fsm e .fetchOp).mono (by simp)))
  exact ⟨by rw [step_instr hf hd, he, afterExecute_normal hcheck, fsmCheck_miss hb], hframe.drop hf.symm⟩

/-- A step on a FunctionReturn from an entry that is no breakpoint. -/
theorem step_functionReturn {s : State} {v : Word16} {rest : List Word16} {len : Nat} (hf : s.fsm = .fetchOp)
    (hd : decode s.mem.cellAt s.pc.toNat = .instr .functionReturn len) (hs : s.stack = v :: rest)
    (hb : ¬ AtBreakpoint { s with pc := v }) :
    ∃ t, step s = .next t ∧ t.pc = v ∧ t.stack = rest ∧ t.fsm = .fetchOp ∧
      OnlyChanges [.pc, .latches, .stack] s t := by
  have he := exec_functionReturn_cons (s := latchInstr .functionReturn len s) hs
  obtain ⟨ht, hframe⟩ := step_continues hf hd he (endsNormally_stack_pc _ rest v) hb
  exact ⟨_, ht, rfl, rfl, rfl, hframe.mono (by decide)⟩

/-- A step on a FunctionCall with room on the stack, to a target that is no breakpoint. -/
theorem step_functionCall {s : State} {x : Operand} {len : Nat} (hf : s.fsm = .fetchOp)
    (hd : decode s.mem.cellAt s.pc.toNat = .instr (.functionCall x) len)
    (hroom : s.params.stackCapacity ≠ some s.stack.length) (hb : ¬ AtBreakpoint { s with pc := resolveTarget s x }) :
    ∃ t, step s = .next t ∧ t.pc.toNat = operandValue s x ∧ t.stack = (s.pc + BitVec.ofNat 16 len) :: s.stack ∧
      t.fsm = .fetchOp ∧ t.mem = s.mem ∧ OnlyChanges [.pc, .latches, .stack] s t := by
  have htarget : resolveTarget (latchInstr (.functionCall x) len s) x = resolveTarget s x :=
    congrArg cellOfWord (resolve_latchInstr _ len s x)
  have he := exec_functionCall_room (s := latchInstr (.functionCall x) len s) x hroom
  rw [htarget] at he
  obtain ⟨ht, hframe⟩ := step_continues hf hd he (endsNormally_stack_pc _ _ _) hb
  exact ⟨_, ht, resolveTarget_toNat s x, rfl, rfl, rfl, hframe.mono (by decide)⟩

/-- Settles O34: the two cases of the stack, and a step whose popped `pc` is past every breakpoint and every cell. -/
theorem functionReturnPopsIntoPc : Obligations.FunctionReturnPopsIntoPc := by
  refine ⟨rfl, fun s => ⟨fun hempty => ?_, fun v rest htop => ?_⟩, fun s rest hf htop hd => ?_⟩
  · exact .of_finishFault (exec_functionReturn_empty hempty) rfl
  · exact ⟨_, exec_functionReturn_cons htop, rfl, rfl, endsNormally_stack_pc s rest v⟩
  · obtain ⟨t, ht, hpc, hstack, hfsm, -⟩ :=
      step_functionReturn hf hd htop (not_atBreakpoint_of_pc_ge (Nat.le_refl 32768))
    have hend : t.pc.toNat = 32768 := by rw [hpc]; rfl
    exact ⟨t, ht, hend, hstack, hfsm, hend ▸ stepFaults_of_pc_ge hfsm hend.ge⟩

/-- Settles O55: the call's step pushes the post-fetch `pc` and changes no cell, so that the return's step decodes as
before and pops that `pc`. -/
theorem callThenReturnIsARoundTrip : Obligations.CallThenReturnIsARoundTrip := by
  intro s target hf hbps hroom hcall hreturn
  obtain ⟨t, ht, hpc, hstack, hfsm, hmem, hst⟩ :=
    step_functionCall hf hcall hroom (not_atBreakpoint_of_bps_nil hbps)
  have htbps : t.bps = [] := (hst .bps (by decide)).trans hbps
  obtain ⟨u, hu, hupc, hustack, hufsm, htu⟩ :=
    step_functionReturn hfsm (by rw [hmem, hpc, hreturn]) hstack (not_atBreakpoint_of_bps_nil htbps)
  have hsu : OnlyChanges [.stack, .pc, .latches] s u := (hst.trans htu).mono (by decide)
  exact ⟨u, .succ ht (.succ hu (.zero u)), hupc, hustack, hufsm, hsu.drop hustack⟩

end Sys2Proof.Machine

/-! ## Arithmetic and logic's statements: the sums, the remainder and the bitwise operations (45_alu.md) -/

namespace Sys2Proof.Machine

/-- Settles O35: a literal destination is refused, and a register gets the reduced sum or product. -/
theorem addAndMultiplyWrapModulo32768 : Obligations.AddAndMultiplyWrapModulo32768 := by
  refine fun a b => ⟨fun _ => ⟨rfl, rfl⟩, fun s => ⟨?_, ?_, fun d => ⟨?_, ?_⟩⟩⟩
  · exact literalDestinationFaults_of_exec fun _ => rfl
  · exact literalDestinationFaults_of_exec fun _ => rfl
  · exact exists_writesReg_of_exec rfl (by rw [aluAdd_toNat, resolve_toNat, resolve_toNat])
  · exact exists_writesReg_of_exec rfl (by rw [aluMultiply_toNat, resolve_toNat, resolve_toNat])

/-! ### Mod, by its divisor -/

theorem exec_mod_zero {s : State} {b : Operand} (d : RegIdx) (a : Operand) (h : operandValue s b = 0) :
    exec (.mod (.reg d) a b) s = finishFault .divideByZero (cellOfWord (resolve s a)) s :=
  if_pos ((resolve_eq_zero_iff s b).mpr h)

theorem exec_mod_nonzero {s : State} {b : Operand} (d : RegIdx) (a : Operand) (h : operandValue s b ≠ 0) :
    exec (.mod (.reg d) a b) s = finishWrite d (aluMod (resolve s a) (resolve s b)) s :=
  if_neg (mt (resolve_eq_zero_iff s b).mp h)

/-- Settles O36: the literal destination first, then the zero divisor's fault, then the remainder. -/
theorem modFaultsOnAZeroDivisor : Obligations.ModFaultsOnAZeroDivisor := by
  refine fun a b => ⟨fun _ => rfl, fun s => ⟨literalDestinationFaults_of_exec fun _ => rfl, fun d =>
    ⟨fun hzero => ?_, fun hdiv => ?_⟩⟩⟩
  · exact .of_finishFault (exec_mod_zero d a hzero) ((cellOfWord_toNat _).trans (resolve_toNat s a))
  · exact exists_writesReg_of_exec (exec_mod_nonzero d a hdiv) (by rw [aluMod_toNat, resolve_toNat, resolve_toNat])

/-! ### The bitwise operations -/

/-- Settles O37: a literal destination is refused, and a register gets the conjunction or the disjunction of the bits. -/
theorem bitwiseAndOrWriteTheBitwiseResult : Obligations.BitwiseAndOrWriteTheBitwiseResult := by
  refine fun a b => ⟨fun _ => ⟨rfl, rfl⟩, fun s => ⟨?_, ?_, fun d => ⟨?_, ?_⟩⟩⟩
  · exact literalDestinationFaults_of_exec fun _ => rfl
  · exact literalDestinationFaults_of_exec fun _ => rfl
  · exact exists_writesReg_of_exec rfl (by rw [aluAnd_toNat, resolve_toNat, resolve_toNat])
  · exact exists_writesReg_of_exec rfl (by rw [aluOr_toNat, resolve_toNat, resolve_toNat])

theorem exists_bitwiseNot_of_reg (s : State) (d : RegIdx) (a : Operand) :
    ∃ t, exec (.bitwiseNot (.reg d) a) s = .next t ∧ WritesReg d (32767 - operandValue s a) s t ∧
      EndsNormally [.regs] s t :=
  exists_writesReg_of_exec rfl (by rw [aluNot_toNat, resolve_toNat])

/-- Settles O38: a second BitwiseNot of the register takes the complement of a complement, and the operand is at most
32767. -/
theorem bitwiseNotComplementsWithin15Bits : Obligations.BitwiseNotComplementsWithin15Bits := by
  refine fun a => ⟨fun _ => rfl, fun s => ⟨literalDestinationFaults_of_exec fun _ => rfl, fun d => ?_⟩⟩
  obtain ⟨t, hfirst, ⟨hval, hothers⟩, hends⟩ := exists_bitwiseNot_of_reg s d a
  obtain ⟨u, hsecond, ⟨hback, -⟩, -⟩ := exists_bitwiseNot_of_reg t d (.reg d)
  refine ⟨t, hfirst, ⟨hval, hothers⟩, hends, u, hsecond, ?_⟩
  have hle : operandValue s a ≤ 32767 := Nat.le_of_lt_succ (operandValue_lt s a)
  calc (u.reg d).toNat
      = 32767 - (t.reg d).toNat := hback
    _ = 32767 - (32767 - operandValue s a) := by rw [hval]
    _ = operandValue s a := Nat.sub_sub_self hle

end Sys2Proof.Machine

/-! ## Memory access's statements: MemoryRead and MemoryWrite (46_memory_access.md) -/

namespace Sys2Proof.Machine

/-! ### MemoryRead, by the cell it reads -/

theorem exec_memoryRead_wide {s : State} {x : Operand} (d : RegIdx)
    (h : 32767 < (s.mem.read (operandValue s x)).toNat) :
    exec (.memoryRead (.reg d) x) s = finishFault .valueOutOfRange (s.mem.read (operandValue s x)) s := by
  rw [← resolveAddr_eq s x] at h ⊢
  exact if_pos h

theorem exec_memoryRead_fits {s : State} {x : Operand} (d : RegIdx)
    (h : (s.mem.read (operandValue s x)).toNat ≤ 32767) :
    exec (.memoryRead (.reg d) x) s = finishWrite d (wordOfCell (s.mem.read (operandValue s x))) s := by
  rw [← resolveAddr_eq s x] at h ⊢
  exact if_neg (Nat.not_lt.mpr h)

/-- Settles O39: the literal destination first, then the wide cell's fault, then the load. -/
theorem memoryReadLoadsTheCell : Obligations.MemoryReadLoadsTheCell := by
  refine fun addr => ⟨fun _ => rfl, fun s => ⟨literalDestinationFaults_of_exec fun _ => rfl, fun d =>
    ⟨fun hwide => ?_, fun hfits => ?_⟩⟩⟩
  · exact .of_finishFault (exec_memoryRead_wide d hwide) rfl
  · exact exists_writesReg_of_exec (exec_memoryRead_fits d hfits) (wordOfCell_toNat_of_le hfits)

/-! ### The memory's frame and the cell written -/

theorem onlyChanges_mem (s : State) (m : Memory) : OnlyChanges [.mem] s { s with mem := m } := by
  intro p hp
  cases p <;> simp_all [Part.Same, State.reg]

theorem writesCell_of_mem_eq_write {s t : State} {a n : Nat} {v : Word16} (h : t.mem = s.mem.write a v)
    (hv : v.toNat = n) : WritesCell a n s t := by
  unfold WritesCell
  rw [h]
  exact ⟨by rw [Memory.read_write_same, hv], fun _ hb => Memory.read_write_other s.mem v hb⟩

/-- Settles O40: exec's one change is the port's write, of the resolved value at the resolved address. -/
theorem memoryWriteStoresTheValue : Obligations.MemoryWriteStoresTheValue := by
  refine fun addr val => ⟨rfl, fun s => ⟨_, rfl, ?_, resolveAddr_eq s addr, .of_onlyChanges (onlyChanges_mem s _)⟩⟩
  rintro a rfl
  exact writesCell_of_mem_eq_write rfl ((cellOfWord_toNat _).trans (resolve_toNat s val))

end Sys2Proof.Machine

/-! ## Character I/O's statements: PrintChar and ReadChar (47_io.md) -/

namespace Sys2Proof.Machine

theorem onlyChanges_emit (s : State) (v : Word15) : OnlyChanges [.outlog] s (emit v s) := by
  intro p hp
  cases p <;> simp_all [Part.Same, emit, State.reg]

/-- Settles O42: OUT_EN decides between the output's one new value and no change. -/
theorem printCharEmitsWhenEnabled : Obligations.PrintCharEmitsWhenEnabled := by
  refine fun val => ⟨rfl, fun s => ?_⟩
  cases hen : s.outEn with
  | true =>
    exact ⟨_, exec_printChar_enabled val hen, .of_onlyChanges (onlyChanges_emit s _),
      fun _ => ⟨_, rfl, resolve_toNat s val⟩, nofun⟩
  | false => exact ⟨_, exec_printChar_disabled val hen, .of_onlyChanges (.refl [.outlog] s), nofun, fun _ => rfl⟩

theorem onlyChanges_inq (s : State) (queue : List Word15) : OnlyChanges [.inq] s { s with inq := queue } := by
  intro p hp
  cases p <;> simp_all [Part.Same, State.reg]

/-- Taking a value from the queue into a register changes the register file and the queue. -/
theorem onlyChanges_inq_setReg (s : State) (queue : List Word15) (d : RegIdx) (v : Word15) :
    OnlyChanges [.regs, .inq] s (({ s with inq := queue } : State).setReg d v) :=
  ((onlyChanges_inq s queue).mono (by decide)).trans ((onlyChanges_setReg _ d v).mono (by decide))

/-- Settles O43: the literal destination first, then the starved run on an empty queue, then the value taken. -/
theorem readCharTakesTheOldestOrStarves : Obligations.ReadCharTakesTheOldestOrStarves := by
  refine ⟨fun _ => rfl, fun s => ⟨literalDestinationFaults_of_exec fun _ => rfl, fun d =>
    ⟨fun hempty => ?_, fun v rest hqueue => ?_⟩⟩⟩
  · exact ⟨_, exec_readChar_empty d hempty, rfl, rfl, rfl, onlyChanges_starve s⟩
  · exact ⟨_, exec_readChar_cons d hqueue, rfl, writesReg_setReg { s with inq := rest } d rfl,
      .of_onlyChanges (onlyChanges_inq_setReg s rest d v)⟩

end Sys2Proof.Machine

/-! ## The exceptions' statements: faults, and what the host may do in a stopped CORE (60_exceptions.md) -/

namespace Sys2Proof.Machine

/-! ### Faults: which, and what they change (R109, R112) -/

/-- An execute step that ends FAULTED has taken one of its instruction's faults, and done nothing else. -/
theorem ExecCase.eq_raiseFault {i : Instr} {s t : State} (hx : ExecCase i s t) (hf : t.fsm = .stopped)
    (hs : t.status = .faulted) :
    ∃ cause info, cause ∈ possibleCauses i ∧ cause ≠ .noFault ∧ t = raiseFault cause info s := by
  cases hx with
  | fault cause info hc hn => exact ⟨cause, info, hc, hn, rfl⟩
  | halt | starved => cases hs
  | _ => cases hf

/-- Settles O21: the only case of the execute step that ends FAULTED names its cause. -/
theorem faultCausesOfEachInstruction : Obligations.FaultCausesOfEachInstruction := by
  intro i s t h hf hs
  obtain ⟨cause, info, hc, -, rfl⟩ := (exec_case_of_next h).eq_raiseFault hf hs
  exact hc

/-- The breakpoint check takes no fault (R73). -/
theorem fsmCheck_status_ne_faulted {s : State} (h : s.status ≠ .faulted) : (fsmCheck s).status ≠ .faulted := by
  by_cases hb : AtBreakpoint s
  · rw [fsmCheck_hit hb]
    nofun
  · rw [fsmCheck_miss hb]
    exact h

/-- A step of a run that ends FAULTED has taken a fault in decode or in its execute step. -/
theorem StepCase.eq_raiseFault {s t : State} (hx : StepCase s t) (hs : s.status = .running)
    (ht : t.status = .faulted) :
    ∃ cause info e, cause ≠ .noFault ∧ t = raiseFault cause info e ∧ e.opaddr = s.pc ∧
      OnlyChanges [.pc, .fsm, .latches] s e := by
  cases hx with
  | decodeFault cause info hc =>
    exact ⟨cause, info, _, hc, rfl, rfl, (onlyChanges_latches s s.pc s.opc s.opnd s.k).mono (by decide)⟩
  | ended i len t hd hx _ hf =>
    obtain ⟨cause, info, -, hn, rfl⟩ := hx.eq_raiseFault hf ht
    exact ⟨cause, info, _, hn, rfl, rfl, onlyChanges_latchInstr i len s⟩
  | normal i len t hd hx he hf hr => exact absurd ht (fsmCheck_status_ne_faulted (by simp [hr, hs]))

/-- Settles O22: the step is fault entry, on a state that differs in `pc`, the FSM and the latches. -/
theorem faultsArePrecise : Obligations.FaultsArePrecise := by
  intro s t hf hs h ht
  obtain ⟨cause, info, e, hn, rfl, ho, hframe⟩ := (step_case_of_next hf h).eq_raiseFault hs ht
  exact ⟨hn, ho, ho, rfl, (hframe.mono (by decide)).trans ((onlyChanges_raiseFault cause info e).mono (by decide))⟩

/-! ### What a transaction can change (R121) -/

theorem onlyChanges_bps (s : State) (bs : List Addr) : OnlyChanges [.bps] s { s with bps := bs } := by
  intro p hp
  cases p <;> simp_all [Part.Same, State.reg]

theorem onlyChanges_outEn (s : State) (b : Bool) : OnlyChanges [.outEn] s { s with outEn := b } := by
  intro p hp
  cases p <;> simp_all [Part.Same, State.reg]

theorem onlyChanges_outRead (s : State) (n : Nat) : OnlyChanges [.outRead] s { s with outRead := n } := by
  intro p hp
  cases p <;> simp_all [Part.Same, State.reg]

/-- The parts a transaction writes when it is accepted. -/
def hostParts : HostOp → List Part
  | .reset => [.regs, .pc, .mem, .stack, .inq, .bps, .outEn, .status, .faultRecord, .fsm, .latches, .outlog, .outRead]
  | .loadImage _ => [.mem]
  | .run => [.status, .fsm]
  | .getStatus => []
  | .getPc => []
  | .getReg _ => []
  | .setReg _ _ => [.regs]
  | .getMem _ => []
  | .setMem _ _ => [.mem]
  | .getMemView => []
  | .addBreakpoint _ => [.bps]
  | .setOutput _ => [.outEn]
  | .appendInput _ => [.inq]
  | .readOutput => [.outRead]

/-- An answer with its state is `REJECTED` with no change, or `OK` with a change of the parts listed. -/
inductive Answered (ps : List Part) (s : State) : HostReply × State → Prop where
  | rejected : Answered ps s (reject s)
  | ok (data : HostData) (t : State) (h : OnlyChanges ps s t) : Answered ps s (.ok data, t)

/-- Both branches of a transaction's check. -/
theorem Answered.ite {ps : List Part} {s : State} {c : Prop} [Decidable c] {a b : HostReply × State}
    (ha : Answered ps s a) (hb : Answered ps s b) : Answered ps s (if c then a else b) := by
  split
  · exact ha
  · exact hb

/-- An answer that reads. -/
theorem Answered.read (s : State) (data : HostData) : Answered [] s (answer data s) :=
  .ok data s (.refl [] s)

theorem Answered.onlyChanges {ps : List Part} {s : State} {r : HostReply × State} (h : Answered ps s r) :
    OnlyChanges ps s r.2 := by
  cases h with
  | rejected => exact .refl ps s
  | ok data t h => exact h

theorem Answered.eq_of_rejected {ps : List Part} {s : State} {r : HostReply × State} (h : Answered ps s r)
    (hr : r.1 = .rejected) : r.2 = s := by
  cases h with
  | rejected => rfl
  | ok data t => cases hr

theorem onlyChanges_hostReset (s : State) : OnlyChanges (hostParts .reset) s (hostReset s) := by
  intro p hp
  cases p with
  | params => rfl
  | _ => exact absurd (by decide) hp

/-- Everything a transaction can do, in any state. -/
theorem hostOp_answered (op : HostOp) (s : State) : Answered (hostParts op) s (hostOp op s) := by
  by_cases hr : op = .reset
  · subst hr
    exact .ok _ _ (onlyChanges_hostReset s)
  by_cases hf : s.fsm = .stopped
  · rw [hostOp_stopped hf]
    cases op with
    | reset => exact absurd rfl hr
    | loadImage b => exact .ite .rejected (.ite .rejected (.ok _ _ (onlyChanges_mem s _)))
    | run => exact .ite (.ok _ _ (onlyChanges_run s)) .rejected
    | getStatus | getPc | getMemView => exact .read s _
    | getReg i =>
      simp only [hostOpStopped, hostGetReg]
      split
      · exact .read s _
      · exact .rejected
    | setReg i v =>
      simp only [hostOpStopped, hostSetReg]
      split
      · exact .ok _ _ (onlyChanges_setReg s _ _)
      · exact .rejected
    | getMem a => exact .ite (.read s _) .rejected
    | setMem a v => exact .ite (.ok _ _ (onlyChanges_mem s _)) .rejected
    | addBreakpoint a =>
      exact .ite .rejected (.ite (.ok _ _ (.refl _ s)) (.ite (.ok _ _ (onlyChanges_bps s _)) .rejected))
    | setOutput b => exact .ite (.ok _ _ (onlyChanges_outEn s _)) .rejected
    | appendInput codes => exact .ite .rejected (.ite (.ok _ _ (onlyChanges_inq s _)) .rejected)
    | readOutput => exact .ok _ _ (onlyChanges_outRead s _)
  · rw [hostOp_running hf hr]
    exact .rejected

/-- Accepted or not, a transaction changes nothing but its parts. -/
theorem hostOp_onlyChanges (op : HostOp) (s : State) : OnlyChanges (hostParts op) s (hostOp op s).2 :=
  (hostOp_answered op s).onlyChanges

/-- Only RESET and RUN write STATUS, the fault record and the FSM. -/
theorem hostParts_disjoint {op : HostOp} (hr : op ≠ .reset) (hrun : op ≠ .run) :
    (hostParts op).Disjoint [.status, .faultRecord, .fsm] := by
  cases op with
  | reset => exact absurd rfl hr
  | run => exact absurd rfl hrun
  | _ => simp [hostParts]

/-- What every transaction but RESET and RUN leaves alone. -/
theorem hostOp_same {op : HostOp} (s : State) (hr : op ≠ .reset) (hrun : op ≠ .run) :
    ∀ p ∈ [Part.status, .faultRecord, .fsm], p.Same s (hostOp op s).2 :=
  fun p hp => hostOp_onlyChanges op s p fun h => hostParts_disjoint hr hrun h hp

/-- Settles O46: the check of R122, and the two kinds of answer. -/
theorem hostIsRejectedWhileRunning : Obligations.HostIsRejectedWhileRunning :=
  fun s op => ⟨hostOp_running, (hostOp_answered op s).eq_of_rejected⟩

/-! ### STOPPED, and FAULTED (R113, R120) -/

/-- No number of steps moves a stopped CORE. -/
theorem stepsTo_stopped {s : State} (hf : s.fsm = .stopped) (n : Nat) : StepsTo n s s := by
  induction n with
  | zero => exact .zero s
  | succ n ih => exact .succ (step_stopped hf) ih

/-- Settles O58: no step, and no transaction but RUN, writes another FSM state. -/
theorem stoppedIsLeftOnlyByTheHost : Obligations.StoppedIsLeftOnlyByTheHost := by
  refine fun s hf => ⟨step_stopped hf, fsmStep_stopped hf, stepsTo_stopped hf, fun op hrun => ?_⟩
  by_cases hr : op = .reset
  · subst hr
    exact ⟨rfl, fun h => absurd rfl h⟩
  · have hsame := hostOp_same s hr hrun
    exact ⟨(hsame .fsm (by decide)).trans hf, fun _ => ⟨hsame .status (by decide), hsame .faultRecord (by decide)⟩⟩

/-- `s` with STATUS = IDLE. -/
abbrev State.withIdle (s : State) : State := { s with status := .idle }

/-- No transaction but RUN and GET_STATUS reads STATUS. -/
theorem hostOp_withIdle {op : HostOp} (s : State) (hrun : op ≠ .run) (hget : op ≠ .getStatus) :
    hostOp op s.withIdle = Prod.map id State.withIdle (hostOp op s) := by
  refine ite_eq_map rfl (ite_eq_map ?_ rfl)
  cases op with
  | run => exact absurd rfl hrun
  | getStatus => exact absurd rfl hget
  | reset | getPc | getMemView | readOutput => rfl
  | getMem | setMem | setOutput => exact ite_eq_map rfl rfl
  | loadImage | appendInput => exact ite_eq_map rfl (ite_eq_map rfl rfl)
  | addBreakpoint => exact ite_eq_map rfl (ite_eq_map rfl (ite_eq_map rfl rfl))
  | getReg i => simp only [hostOpStopped, hostGetReg]; split <;> rfl
  | setReg i v => simp only [hostOpStopped, hostSetReg]; split <;> rfl

/-- A CORE in the invariant that has faulted is stopped (R67). -/
theorem State.Inv.stopped_of_faulted {s : State} (h : s.Inv) (hs : s.status = .faulted) : s.fsm = .stopped := by
  by_contra hf
  cases hs.symm.trans (h.coherent.mpr hf)

/-- Settles O23: a FAULTED CORE is stopped, RUN is refused there, and the others write no STATUS and read none. -/
theorem faultsAreSticky : Obligations.FaultsAreSticky := by
  intro s hinv hs
  have hf := hinv.stopped_of_faulted hs
  have hrun : hostOp .run s = (.rejected, s) := (runStartsOnlyAStoppedUnfaultedCore s).2.1 hs
  refine ⟨step_stopped hf, hrun, fun op hr => ?_, fun op hne hget => ?_, ?_, rfl⟩
  · by_cases hop : op = .run
    · rw [hop, hrun]
      exact ⟨hs, rfl, rfl, rfl⟩
    · have hsame := hostOp_same s hr hop
      exact ⟨(hsame .status (by decide)).trans hs, hsame .faultRecord (by decide)⟩
  · rw [hostOp_withIdle s hne hget]
    rfl
  · rw [hostOp_stopped hf, hostOpStopped, hostGetStatus, hs]
    rfl

/-! ### The reads (R123, R124) -/

/-- The numbers of 10_state.md R26. -/
theorem status_code_mem (st : Status) :
    (st.code.toNat, st) ∈ [(0, Status.idle), (1, .running), (2, .halted), (3, .breakpoint), (4, .inputStarved),
      (5, .faulted)] := by
  cases st <;> decide

/-- The numbers of R108. -/
theorem faultCause_code_mem (c : FaultCause) :
    (c.code.toNat, c) ∈ [(0, FaultCause.noFault), (1, .fetchOutOfRange), (2, .unrecognizedOpcode),
      (3, .invalidOperand), (4, .stackUnderflow), (5, .invalidDestination), (6, .divideByZero), (7, .valueOutOfRange),
      (8, .stackOverflow)] := by
  cases c <;> decide

/-- Cell `a` of the view is the cell of memory at `a`. -/
theorem eq_read_of_memView {m : Memory} {a : Nat} {w : Word16} (h : ((List.range memWords).map m.read)[a]? = some w) :
    w = m.read a := by
  rw [List.getElem?_map] at h
  obtain ⟨b, hb, rfl⟩ := Option.map_eq_some_iff.mp h
  obtain ⟨hlt, hval⟩ := List.getElem?_eq_some_iff.mp hb
  rw [← hval, List.getElem_range]

/-- Settles O48: each read is its answer in a stopped CORE, behind its range check. -/
theorem hostReadsReturnTheState : Obligations.HostReadsReturnTheState := by
  intro s hf
  simp only [hostOp_stopped hf]
  refine ⟨rfl, ⟨_, _, rfl, status_code_mem _, faultCause_code_mem _⟩, fun i => dif_pos i.isLt,
    fun i hi => dif_neg (Nat.not_lt.mpr hi), fun a ha => if_pos ha, fun a ha => if_neg (Nat.not_lt.mpr ha), _, rfl, ?_,
    fun a w => eq_read_of_memView⟩
  rw [List.length_map, List.length_range]

/-! ### The writes (R125 to R131) -/

/-- Settles O47: the two checks, and then the image's cells, read back. -/
theorem loadImagePlacesLittleEndianWords : Obligations.LoadImagePlacesLittleEndianWords := by
  intro s b hf
  rw [hostOp_stopped hf]
  refine ⟨fun h => ?_, fun hodd hsize => ⟨_, ?_, onlyChanges_mem s (s.mem.storeCells 0 (imageCells b)), ?_, ?_⟩⟩
  · by_cases hodd : b.length % 2 = 1
    · exact if_pos hodd
    · exact (if_neg hodd).trans (if_pos (h.resolve_left hodd))
  · exact (if_neg (by omega)).trans (if_neg (Nat.not_lt.mpr hsize))
  · intro j lo hi hlo hhi
    have hcell := imageCells_getElem? b j lo hi hlo hhi
    obtain ⟨hlt, -⟩ := List.getElem?_eq_some_iff.mp hcell
    rw [imageCells_length] at hlt
    simp only [Memory.read_storeCells, imageCells_length]
    rw [if_pos (by simp only [memWords]; omega), Nat.sub_zero, List.getD_eq_getElem?_getD, hcell]
    exact imageCell_toNat lo hi
  · intro a ha
    simp only [Memory.read_storeCells, imageCells_length]
    exact if_neg (by omega)

/-- Settles O49: each write is behind its range check. -/
theorem hostWritesAreRangeChecked : Obligations.HostWritesAreRangeChecked := by
  intro s hf
  simp only [hostOp_stopped hf]
  refine ⟨fun i v hv => ?_, fun i v h => dif_neg (by omega), fun a v ha hv => ?_,
    fun a v h => if_neg (by simp only [memWords]; omega)⟩
  · refine ⟨_, dif_pos ⟨i.isLt, by omega⟩, ?_, onlyChanges_setReg s i _⟩
    exact ⟨by rw [State.reg_setReg_same, BitVec.toNat_ofNat, Nat.mod_eq_of_lt (by omega)],
      fun j hj => State.reg_setReg_other s _ hj⟩
  · refine ⟨_, if_pos ⟨by simp only [memWords]; omega, by omega⟩, writesCell_of_mem_eq_write rfl ?_, onlyChanges_mem s _⟩
    rw [BitVec.toNat_ofNat, Nat.mod_eq_of_lt (by omega)]

/-- ADD_BREAKPOINT of an address (R127): only the set and its capacity decide. -/
theorem hostAddBreakpoint_addr (a : Addr) (s : State) :
    hostAddBreakpoint a.toNat s =
      if a ∈ s.bps then accept s
      else if withinCapacity s.params.breakpointCapacity (s.bps.length + 1) then
        accept { s with bps := breakpointInsert a s.bps }
      else reject s := by
  rw [hostAddBreakpoint, if_neg (Nat.not_le.mpr a.isLt), BitVec.ofNat_toNat, BitVec.setWidth_eq]

/-- Settles O50: a bad address first, then one already in the set, then the capacity. -/
theorem addBreakpointAddsToTheSet : Obligations.AddBreakpointAddsToTheSet := by
  intro s hf
  simp only [hostOp_stopped hf, hostOpStopped, hostAddBreakpoint_addr]
  refine ⟨fun a ha => if_pos ha, fun a => ⟨fun hin => if_pos hin, fun hnew hfit => ?_, fun hnew hfull => ?_⟩⟩
  · exact ⟨_, (if_neg hnew).trans (if_pos ((withinCapacity_iff _ _).mpr hfit)), onlyChanges_bps s _,
      fun b => mem_breakpointInsert a b s.bps⟩
  · exact (if_neg hnew).trans (if_neg fun h => hfull ((withinCapacity_iff _ _).mp h))

/-- Codes within the range keep their numbers. -/
theorem map_toNat_ofNat {codes : List Nat} (h : ∀ c ∈ codes, c ≤ 32767) :
    (codes.map (BitVec.ofNat 15)).map BitVec.toNat = codes := by
  rw [List.map_map]
  exact (List.map_congr_left (g := id) fun c hc => Nat.mod_eq_of_lt (Nat.lt_succ_of_le (h c hc))).trans (List.map_id _)

/-- Settles O51: the codes' check, then the capacity's. -/
theorem appendInputIsAllOrNothing : Obligations.AppendInputIsAllOrNothing := by
  refine fun s codes hf => ⟨fun h => ?_, fun hc hfit => ?_⟩
  · rw [hostOp_stopped hf]
    by_cases hc : codes.any (fun c => decide (32767 < c)) = true
    · exact if_pos hc
    · have hfull := h.resolve_left (by simpa using hc)
      exact (if_neg hc).trans (if_neg fun h => hfull ((withinCapacity_iff _ _).mp h))
  · refine ⟨_, hostOp_appendInput hf hc hfit, onlyChanges_inq s _, ?_⟩
    rw [List.map_append, map_toNat_ofNat hc]

/-- Settles O52: SET_OUTPUT behind its range check, and READ_OUTPUT's split of the record at the count. -/
theorem outputSwitchAndOutputRead : Obligations.OutputSwitchAndOutputRead := by
  intro s hf
  refine ⟨fun b => ⟨_, ?_, rfl, onlyChanges_outEn s b⟩, fun b hb => ?_, _, _, hostOp_stopped hf .readOutput,
    onlyChanges_outRead s _, fun hle => ⟨(List.take_append_drop ..).symm, ?_⟩, ?_⟩
  · rw [hostOp_stopped hf]
    cases b <;> rfl
  · rw [hostOp_stopped hf]
    exact if_neg (Nat.not_lt.mpr hb)
  · rw [List.length_drop]
    exact (Nat.add_sub_of_le hle).symm
  · rw [hostOp_stopped (s := { s with outRead := s.outlog.length }) hf]
    simp only [hostOpStopped, hostReadOutput, List.drop_length]

end Sys2Proof.Machine

/-! ## Reset's statements: the reset values, a run on empty memory, and every reachable state
(70_reset_and_hazards.md) -/

namespace Sys2Proof.Machine

theorem hostReset_reg (s : State) (i : RegIdx) : (hostReset s).reg i = 0 := by
  simp [hostReset, State.reset, State.reg]

/-- Settles O44: the value of each field. -/
theorem resetGivesEveryResetValue : Obligations.ResetGivesEveryResetValue := fun s =>
  ⟨hostReset s, hostOp_reset s, fun i => congrArg BitVec.toNat (hostReset_reg s i), rfl, fun _ => rfl, rfl, rfl, rfl,
    rfl, rfl, rfl, rfl, rfl, rfl, rfl, rfl⟩

/-! ### RUN on empty memory (R135) -/

/-- A stopped CORE that may run, with nothing but 0 in memory, at address `n`. -/
structure State.OnEmptyMemory (n : Nat) (s : State) : Prop where
  stopped : s.fsm = .stopped
  mayRun : s.status.acceptsRun = true
  empty : ∀ a, s.mem.read a = 0
  pcAt : s.pc.toNat = n

/-- One RUN executes the Halt there. -/
theorem State.OnEmptyMemory.exists_runFor_one {n : Nat} {s : State} (h : s.OnEmptyMemory n) (hn : n < 32768) :
    ∃ t, runFor 1 s = .next t ∧ t.status = .halted ∧ t.OnEmptyMemory (n + 1) := by
  have hpc : s.pc.toNat < 32768 := h.pcAt ▸ hn
  refine ⟨_, runFor_one h.stopped h.mayRun (step_halt rfl (decode_halt hpc (h.empty _))), rfl, rfl, rfl, h.empty, ?_⟩
  exact (pc_succ_toNat hpc).trans (congrArg (· + 1) h.pcAt)

theorem runsOfOneStep_succ {n : Nat} {s t : State} (h : runFor 1 s = .next t) :
    runsOfOneStep (n + 1) s = runsOfOneStep n t := by
  simp only [runsOfOneStep, h]

/-- RUN after RUN executes Halt after Halt, up to the end of memory. -/
theorem State.OnEmptyMemory.exists_runsOfOneStep (k : Nat) {n : Nat} {s : State} (h : s.OnEmptyMemory n)
    (hn : n + k < 32768) :
    ∃ t, runsOfOneStep (k + 1) s = .next t ∧ t.status = .halted ∧ t.OnEmptyMemory (n + k + 1) := by
  obtain ⟨t, ht, hhalt, h'⟩ := h.exists_runFor_one (by omega)
  induction k generalizing n s t with
  | zero => exact ⟨t, runsOfOneStep_succ ht, hhalt, h'⟩
  | succ k ih =>
    obtain ⟨u, hu, hhalt, h''⟩ := h'.exists_runFor_one (by omega)
    obtain ⟨v, hv, hend⟩ := ih h' (by omega) u hu hhalt h''
    exact ⟨v, (runsOfOneStep_succ ht).trans hv, by rwa [Nat.add_right_comm n 1 k] at hend⟩

theorem hostReset_onEmptyMemory (s : State) : (hostReset s).OnEmptyMemory 0 := ⟨rfl, rfl, fun _ => rfl, rfl⟩

/-- Settles O53: by induction on the number of RUNs, from the reset state on. -/
theorem emptyMemoryHaltsAtEachRun : Obligations.EmptyMemoryHaltsAtEachRun := by
  intro s n hpos hle
  obtain ⟨k, rfl⟩ : ∃ k, n = k + 1 := ⟨n - 1, by omega⟩
  obtain ⟨t, ht, hhalt, h⟩ := (hostReset_onEmptyMemory s).exists_runsOfOneStep k (by omega)
  exact ⟨t, ht, hhalt, h.stopped, h.pcAt.trans (by omega)⟩

/-! ### Every reachable state -/

/-- No execute step changes the parameters of 00_scope.md R7. -/
theorem ExecCase.params {i : Instr} {s t : State} (hx : ExecCase i s t) : t.params = s.params := by
  cases hx <;> rfl

/-- Nor does a step. -/
theorem StepCase.params {s t : State} (hx : StepCase s t) : t.params = s.params := by
  cases hx with
  | decodeFault => rfl
  | ended i len t hd hx => exact hx.params
  | normal i len t hd hx => exact (onlyChanges_fsmCheck t .params (by decide)).trans hx.params

theorem State.Inv.step_params {s t : State} (h : s.Inv) (ht : step s = .next t) : t.params = s.params := by
  rcases h.boundary with hf | hf
  · rw [Host.Outcome.next.inj ((step_stopped hf).symm.trans ht)]
  · exact (step_case_of_next hf ht).params

/-- Every event, CORE's or the host's, keeps the invariant and the parameters. -/
theorem Event.inv_params {e : Event} {s t : State} (h : s.Inv) (he : e.outcome s = .next t) :
    t.Inv ∧ t.params = s.params := by
  cases e with
  | core =>
    obtain ⟨u, hu, hinv⟩ := stepKeepsTheInvariant s h
    obtain rfl : u = t := Host.Outcome.next.inj (hu.symm.trans he)
    exact ⟨hinv, h.step_params hu⟩
  | host op =>
    obtain rfl : (hostOp op s).2 = t := Host.Outcome.next.inj he
    exact ⟨hostKeepsTheInvariant s op h, hostOp_params op s⟩

theorem Reachable.inv_params {p : Params} {s : State} (h : Reachable p s) : s.Inv ∧ s.params = p := by
  induction h with
  | reset => exact ⟨reset_inv p, rfl⟩
  | event e s t _ he ih =>
    obtain ⟨hinv, hp⟩ := Event.inv_params ih.1 he
    exact ⟨hinv, hp.trans ih.2⟩

/-- Settles O17: by induction on the events from reset, and the step from the invariant. -/
theorem reachableStatesNeverStopTheModel : Obligations.ReachableStatesNeverStopTheModel := by
  intro p s h
  obtain ⟨hinv, hp⟩ := h.inv_params
  obtain ⟨t, ht, -⟩ := stepKeepsTheInvariant s hinv
  exact ⟨hinv, hp, t, ht⟩

end Sys2Proof.Machine
